-- ==== Sys2Proof/Word.lean ====
section
/-!
DEFINITION. Bytes and words (00_scope.md R5, R8): every register is 32 bits wide, BUF holds bytes.
Addition on words is `+` of `BitVec 32`, which is modulo 2^32 as R8 asks; AND, OR, XOR and NOT are `&&&`, `|||`, `^^^`, `~~~`.
-/
namespace Sys2Proof

/-- One byte of BUF (20_memory.md R60). -/
abbrev Byte := BitVec 8

/-- One 32-bit word (00_scope.md R8). -/
abbrev Word := BitVec 32

end Sys2Proof
end

