-- ==== Sys2Proof/Config.lean ====
section
/-!
DEFINITION. What an implementation fixes, and the free values.
-/
namespace Sys2Proof.Config

/-- The constant of the ID register (10_state.md R22). -/
def idValue : Word := 0x53484131

/-- The host byte address of BUF[0] (20_memory.md R61). -/
def bufBase : Nat := 0x80000000

/-- The legal values of the open parameter BUF_CAP (00_scope.md R5): a multiple of 64 from 64 to 2^31. -/
abbrev legalCap (c : Nat) : Prop := c % 64 = 0 ∧ 64 ≤ c ∧ c ≤ 2 ^ 31

/-- DESIGN CHOICE (log 4): the BUF_CAP that `State.reset` takes, the value of the spec's own examples (00_scope.md R5). -/
def exampleCap : Nat := 1024

/-- FREE VALUE (log 3): what draw number `n` gives for byte `i` of BUF when nothing has written that byte since reset
(20_memory.md R76: unspecified, neither zero nor stable). It has no body, so nothing can be proved of its value. DESIGN CHOICE (log 3): it stands for the bytes of
one core. Two states taken as two cores (R77) with equal draws share them, where the spec leaves each core's bytes open. -/
opaque freeByte : (n i : Nat) → Byte

end Sys2Proof.Config
end

