-- ==== Sys2Proof/Syntax.lean ====
section
/-!
DEFINITION. The instructions: one constructor per row of spec/opcode_table.json. The core has two kinds (30_encoding.md):
commands, words that the host writes to CMD, and micro-operations, steps of the engine that PHASE selects. No row has an
operand field (R90, R93): the operands are MLEN, PLEN and BUF as they stand in the state.
-/
namespace Sys2Proof

/-- The rows of the opcode table. -/
inductive Instr where
  /-- NOP, command word 0 (44_commands.md R182). -/
  | nop
  /-- PAD, command word 1 (44_commands.md R183). -/
  | pad
  /-- COMPUTE, command word 2 (44_commands.md R184). -/
  | compute
  /-- HASH, command word 3 (44_commands.md R185). -/
  | hash
  /-- uop.PAD, PHASE 1 (40_padder.md R115). -/
  | uopPad
  /-- uop.CHECK, PHASE 2 (40_padder.md R118). -/
  | uopCheck
  /-- uop.SCHED, PHASE 3 (41_schedule.md R132). -/
  | uopSched
  /-- uop.ROUND, PHASE 4 (42_rounds.md R143). -/
  | uopRound
  /-- uop.ACCUM, PHASE 5 (43_accumulator.md R161). -/
  | uopAccum
deriving DecidableEq, Repr

end Sys2Proof
end

