-- ==== Sys2Proof/WellFormed.lean ====
section
/-!
DEFINITION. The checks on what is written down rather than computed.
No instruction has an operand (30_encoding.md R90, R93), so every term of `Instr` is well formed; what can be ill formed is
a command word (R90: RSV must be 0; R91: OP is 0 to 3), a PHASE code (R95: 1 to 5 select a micro-operation), a capacity
(00_scope.md R5) and the message of a LOADMSG (R99: it needs L <= MSG_CAP).
-/
namespace Sys2Proof

/-- Every instruction is well formed: none has an operand field (30_encoding.md R90). -/
def Instr.wellFormed : Instr → Bool
  | .nop => true
  | .pad => true
  | .compute => true
  | .hash => true
  | .uopPad => true
  | .uopCheck => true
  | .uopSched => true
  | .uopRound => true
  | .uopAccum => true

namespace WellFormed

/-- A defined command word: RSV (bits 31:4) is 0 and OP (bits 3:0) is at most 3 (30_encoding.md R90, R91). -/
def commandWord (v : Word) : Bool := v.extractLsb' 4 28 == 0#28 && v.extractLsb' 0 4 ≤ 3#4

/-- A PHASE code that selects a micro-operation (30_encoding.md R95). -/
def microOpCode (p : BitVec 4) : Bool := 1#4 ≤ p && p ≤ 5#4

/-- A legal BUF_CAP (00_scope.md R5). -/
def capacity (c : Nat) : Bool := decide (Config.legalCap c)

/-- A message that LOADMSG may load: L <= MSG_CAP = BUF_CAP - 9 (30_encoding.md R99, 00_scope.md R5). -/
def loadMessage (bufCap : Nat) (m : List Byte) : Bool := m.length + 9 ≤ bufCap

end WellFormed

end Sys2Proof
end

