-- ==== Sys2Proof/Decode.lean ====
section
/-!
DEFINITION. Decoding, total and rejecting by name, and after it the encoder (30_encoding.md).
The core fetches no bytes (20_memory.md R75): a command is the 32-bit value of one host write to CMD, and a micro-operation
is the 4-bit value of PHASE. So the encoded form is one of these two, not a list of bytes.
-/
namespace Sys2Proof

/-- An encoded instruction: the word written to CMD (30_encoding.md R90) or the PHASE that selects a micro-operation (R95). -/
inductive Code where
  | cmd (v : Word)
  | phase (p : BitVec 4)
deriving DecidableEq, Repr

/-- Why a code names no instruction. -/
inductive DecodeError where
  /-- RSV is not 0, or OP is 4 to 15 (30_encoding.md R92): command acceptance ignores such a word. -/
  | reservedCommand
  /-- PHASE is 0: the engine has no step (30_encoding.md R95). -/
  | noMicroOperation
  /-- PHASE is 6 to 15 (30_encoding.md R96). -/
  | reservedPhase
deriving DecidableEq, Repr

/-! The PHASE codes (30_encoding.md R95). -/
namespace Phase
@[simp] abbrev idle : BitVec 4 := 0#4
@[simp] abbrev pad : BitVec 4 := 1#4
@[simp] abbrev check : BitVec 4 := 2#4
@[simp] abbrev sched : BitVec 4 := 3#4
@[simp] abbrev round : BitVec 4 := 4#4
@[simp] abbrev accum : BitVec 4 := 5#4
end Phase

/-- The field OP, bits 3:0 of a command word (30_encoding.md R90). -/
def opField (v : Word) : BitVec 4 := v.extractLsb' 0 4

/-- The field RSV, bits 31:4 of a command word (30_encoding.md R90). -/
def rsvField (v : Word) : BitVec 28 := v.extractLsb' 4 28

/-- The command a word stands for, or that it is reserved (30_encoding.md R91, R92). -/
def decodeCommand (v : Word) : Except DecodeError Instr :=
  if rsvField v = 0#28 then
    if opField v = 0x0#4 then .ok .nop
    else if opField v = 0x1#4 then .ok .pad
    else if opField v = 0x2#4 then .ok .compute
    else if opField v = 0x3#4 then .ok .hash
    else .error .reservedCommand
  else .error .reservedCommand

/-- The micro-operation PHASE selects (30_encoding.md R95, R96). -/
def decodePhase (p : BitVec 4) : Except DecodeError Instr :=
  if p = Phase.idle then .error .noMicroOperation
  else if p = Phase.pad then .ok .uopPad
  else if p = Phase.check then .ok .uopCheck
  else if p = Phase.sched then .ok .uopSched
  else if p = Phase.round then .ok .uopRound
  else if p = Phase.accum then .ok .uopAccum
  else .error .reservedPhase

/-- The decoder. -/
def decode : Code → Except DecodeError Instr
  | .cmd v => decodeCommand v
  | .phase p => decodePhase p

/-- The word of R91's table, or the PHASE of R95's table (30_encoding.md). -/
def encode : Instr → Code
  | .nop => .cmd 0x00000000#32
  | .pad => .cmd 0x00000001#32
  | .compute => .cmd 0x00000002#32
  | .hash => .cmd 0x00000003#32
  | .uopPad => .phase 1#4
  | .uopCheck => .phase 2#4
  | .uopSched => .phase 3#4
  | .uopRound => .phase 4#4
  | .uopAccum => .phase 5#4

/-- How a row of spec/opcode_table.json is read as a code (log 11): a 32-bit row is a command word; a PHASE row has four
bits, one byte in whole bytes, whose bits 7:4 are 0. -/
def tableCode (nbits w : Nat) : Option Code :=
  if nbits = 32 then
    if w < 2 ^ 32 then some (.cmd (BitVec.ofNat 32 w)) else none
  else if nbits = 8 ∨ nbits = 4 then
    if w < 16 then some (.phase (BitVec.ofNat 4 w)) else none
  else none

/-- What the decoder reads from an opcode-table row's bits. -/
def decodeTableWord (nbits w : Nat) : Option Instr :=
  match tableCode nbits w with
  | some c => (decode c).toOption
  | none => none

end Sys2Proof
end

