-- ==== Sys2Proof/Machine/Memory.lean ====
section
/-!
DEFINITION. The byte buffer BUF (20_memory.md R60) as a list of cells in one canonical form: addresses strictly rising.
The addresses are BUF indices. An address that is not listed holds no specified byte (R76), so no listed cell can equal
what an unlisted address reads as, and every written byte is listed.
-/
namespace Sys2Proof.Machine

/-- The written cells of BUF, by rising index. -/
abbrev Memory := List Host.Cell

namespace Memory

/-- What an unlisted index holds: no specified byte (20_memory.md R76, R222). -/
def unlisted : Option Byte := none

/-- The specified byte at an index, if there is one. -/
def byteAt? : Memory → Nat → Option Byte
  | [], _ => unlisted
  | (j, b) :: m, i => if j = i then some b else byteAt? m i

/-- Write one byte, keeping the indices rising. -/
def setByte : Memory → Nat → Byte → Memory
  | [], i, b => [(i, b)]
  | (j, x) :: m, i, b =>
    if i < j then (i, b) :: (j, x) :: m
    else if i = j then (i, b) :: m
    else (j, x) :: setByte m i b

/-- MemWrite: store bytes at rising indices from `i` (00_scope.md R11). -/
def setBytes : Memory → Nat → List Byte → Memory
  | m, _, [] => m
  | m, i, b :: bs => setBytes (setByte m i b) (i + 1) bs

/-- The canonical form: indices strictly rising. -/
abbrev wf (m : Memory) : Prop := List.Pairwise (fun x y => x.1 < y.1) m

/-- Every listed index is an index of BUF (20_memory.md R60). -/
abbrev within (m : Memory) (cap : Nat) : Prop := ∀ c ∈ m, c.1 < cap

end Memory

end Sys2Proof.Machine
end

