-- ==== Sys2Proof/Machine/Sha1.lean ====
section
/-!
DEFINITION. The pure functions of SHA-1 that the micro-operations use, and the whole-message function they add up to
(00_scope.md R9, R10; 40_padder.md R110 to R114; 41_schedule.md R130, R131; 42_rounds.md R140 to R143;
43_accumulator.md R160, R164, R165).
-/
namespace Sys2Proof.Machine

/-- ROTL32(x, n) for 0 < n < 32 (00_scope.md R9). -/
def rotl32 (x : Word) (n : Nat) : Word := (x <<< n) ||| (x >>> (32 - n))

/-- BE32: the first byte is bits 31:24 (00_scope.md R10). -/
def be32 (b0 b1 b2 b3 : Byte) : Word := b0 ++ b1 ++ b2 ++ b3

/-- The four bytes of a word, most significant first (00_scope.md R11, MemWrite with n = 4). -/
def be32Bytes (v : Word) : List Byte :=
  [v.extractLsb' 24 8, v.extractLsb' 16 8, v.extractLsb' 8 8, v.extractLsb' 0 8]

/-- The eight bytes of a 64-bit value, most significant first (00_scope.md R11, MemWrite with n = 8). -/
def be64Bytes (v : BitVec 64) : List Byte :=
  [v.extractLsb' 56 8, v.extractLsb' 48 8, v.extractLsb' 40 8, v.extractLsb' 32 8,
   v.extractLsb' 24 8, v.extractLsb' 16 8, v.extractLsb' 8 8, v.extractLsb' 0 8]

/-! ### Padding -/

/-- z = (55 - (L mod 64)) mod 64, the number of filler bytes (40_padder.md R112). The subtraction is of integers, so 64 is
added before it. -/
def fillerCount (len : Nat) : Nat := (64 + 55 - len % 64) % 64

/-- N = L + 9 + z, the padded length (40_padder.md R114). -/
def paddedLength (len : Nat) : Nat := len + 9 + fillerCount len

/-- The bit length, zext_64(MLEN) * 8 (40_padder.md R113). DESIGN CHOICE (log 15): for 8 * len >= 2^64, which no MLEN reaches
(R116) and which the spec leaves out, the value is taken modulo 2^64. -/
def bitLength (len : Nat) : BitVec 64 := BitVec.ofNat 64 len * 8#64

/-- What follows the message: marker, filler and trailer (40_padder.md R110 to R113). -/
def padTail (len : Nat) : List Byte :=
  0x80#8 :: (List.replicate (fillerCount len) 0x00#8 ++ be64Bytes (bitLength len))

/-- Pad(m) (40_padder.md R110); for a message of 2^61 bytes or more see log 15. -/
def padMessage (m : List Byte) : List Byte := m ++ padTail m.length

/-! ### The message schedule -/

/-- W[t] from the words before it, newest first, so that W[t-k] stands at index k - 1 (41_schedule.md R131). -/
def nextScheduleWord (ws : List Word) : Word :=
  rotl32 (ws.getD 2 0 ^^^ ws.getD 7 0 ^^^ ws.getD 13 0 ^^^ ws.getD 15 0) 1

/-- `n` more words of the schedule, newest first. -/
def extendSchedule : Nat → List Word → List Word
  | 0, ws => ws
  | n + 1, ws => extendSchedule n (nextScheduleWord ws :: ws)

theorem extendSchedule_length (n : Nat) (ws : List Word) :
    (extendSchedule n ws).length = ws.length + n := by
  induction n generalizing ws with
  | zero => rfl
  | succ n ih => rw [extendSchedule, ih, List.length_cons]; omega

/-- The first 16 words, newest first (41_schedule.md R130). -/
def blockWords (word : Nat → Word) : List Word := (List.range 16).reverse.map word

theorem blockWords_length (word : Nat → Word) : (blockWords word).length = 16 := by
  simp [blockWords]

/-- W[0..79] of the block whose big-endian words are `word 0` to `word 15` (41_schedule.md R130, R131). -/
def schedule (word : Nat → Word) : Vector Word 80 :=
  ⟨(extendSchedule 64 (blockWords word)).reverse.toArray, by
    simp [extendSchedule_length, blockWords_length]⟩

/-- The sixteen newest words after n slides of a sixteen-word window, newest first: the storage form of 41_schedule.md R133. -/
def slideWindow (win : List Word) : Nat → List Word
  | 0 => win
  | n + 1 => (nextScheduleWord (slideWindow win n) :: slideWindow win n).take 16

/-! ### The rounds -/

/-- The working registers A..E (10_state.md R34). -/
structure Working where
  a : Word
  b : Word
  c : Word
  d : Word
  e : Word
deriving DecidableEq, Repr

/-- The digest state H[0..4] (10_state.md R32). -/
structure Digest where
  h0 : Word
  h1 : Word
  h2 : Word
  h3 : Word
  h4 : Word
deriving DecidableEq, Repr

/-- f(t, B, C, D) (42_rounds.md R140); only used for t < 80 (R142). -/
def roundF (t : Nat) (b c d : Word) : Word :=
  if t < 20 then (b &&& c) ||| (~~~b &&& d)
  else if t < 40 then b ^^^ c ^^^ d
  else if t < 60 then (b &&& c) ||| (b &&& d) ||| (c &&& d)
  else b ^^^ c ^^^ d

/-- K(t) (42_rounds.md R141); only used for t < 80 (R142). -/
def roundK (t : Nat) : Word :=
  if t < 20 then 0x5A827999
  else if t < 40 then 0x6ED9EBA1
  else if t < 60 then 0x8F1BBCDC
  else 0xCA62C1D6

/-- The registers after round t with schedule word w, a simultaneous assignment (42_rounds.md R143, R144). -/
def roundStep (t : Nat) (w : Word) (x : Working) : Working where
  a := rotl32 x.a 5 + roundF t x.b x.c x.d + x.e + w + roundK t
  b := x.a
  c := rotl32 x.b 30
  d := x.c
  e := x.d

/-! ### The digest -/

/-- IV[0..4] (43_accumulator.md R160; log 12: general knowledge by the spec's own mark). -/
def iv : Digest := ⟨0x67452301, 0xEFCDAB89, 0x98BADCFE, 0x10325476, 0xC3D2E1F0⟩

/-- A..E from H[0..4] in order (41_schedule.md R132). -/
def Working.ofDigest (h : Digest) : Working := ⟨h.h0, h.h1, h.h2, h.h3, h.h4⟩

/-- H[i] + (A..E)[i], element by element (43_accumulator.md R161). -/
def Digest.add (h : Digest) (x : Working) : Digest :=
  ⟨h.h0 + x.a, h.h1 + x.b, h.h2 + x.c, h.h3 + x.d, h.h4 + x.e⟩

/-- The registers after rounds t, t+1, ... with the schedule words given (42_rounds.md R145). -/
def runRounds : (t : Nat) → List Word → Working → Working
  | _, [], x => x
  | t, w :: ws, x => runRounds (t + 1) ws (roundStep t w x)

/-- H after the block whose words are given: SCHED, 80 rounds, ACCUM (43_accumulator.md R165). -/
def compressBlock (h : Digest) (word : Nat → Word) : Digest :=
  h.add (runRounds 0 (schedule word).toList (Working.ofDigest h))

/-- Word k of block i of a byte sequence (41_schedule.md R130). -/
def blockWord (byte : Nat → Byte) (i k : Nat) : Word :=
  be32 (byte (64 * i + 4 * k)) (byte (64 * i + 4 * k + 1)) (byte (64 * i + 4 * k + 2)) (byte (64 * i + 4 * k + 3))

/-- H after blocks 0 to n - 1 of a byte sequence, strictly in order from IV (43_accumulator.md R162, R165). -/
def compressBlocks (byte : Nat → Byte) : Nat → Digest
  | 0 => iv
  | n + 1 => compressBlock (compressBlocks byte n) (blockWord byte n)

/-- SHA1(m) (43_accumulator.md R165), for the messages that fit in a buffer; for 2^61 bytes or more see log 15. -/
def sha1 (m : List Byte) : Digest :=
  compressBlocks (fun i => (padMessage m).getD i 0) (paddedLength m.length / 64)

/-- One lowercase hexadecimal digit (43_accumulator.md R164). -/
def hexDigit (n : Nat) : Char :=
  ['0', '1', '2', '3', '4', '5', '6', '7', '8', '9', 'a', 'b', 'c', 'd', 'e', 'f'].getD n '0'

/-- hex8(w): eight digits, most significant first, leading zeros kept (43_accumulator.md R164). -/
def hex8 (w : Word) : List Char :=
  [7, 6, 5, 4, 3, 2, 1, 0].map fun k => hexDigit (w.toNat / 16 ^ k % 16)

/-- HexDigest(H), the digest string as its characters: a host-side function (43_accumulator.md R164). -/
def hexDigest (h : Digest) : List Char := hex8 h.h0 ++ hex8 h.h1 ++ hex8 h.h2 ++ hex8 h.h3 ++ hex8 h.h4

end Sys2Proof.Machine
end

