-- ==== Sys2Proof/Machine/State.lean ====
section
/-!
DEFINITION. The state of SHA1-CORE (10_state.md R20), the inputs still to come, the reasons a step can stop, and reset.
-/
namespace Sys2Proof.Machine

/-- One host access, a word read or a word write (20_memory.md R62, R63). -/
inductive Access where
  | read (addr : Word)
  | write (addr value : Word)
deriving DecidableEq, Repr

/-- What happens next (00_scope.md R6): a host access, an engine step, or reset. -/
inductive Event where
  | bus (x : Access)
  | engine
  | reset
deriving DecidableEq, Repr

/-- The state. The elements of 10_state.md R20, and the model's own `draws`, `agenda` and `replies`. -/
structure State where
  /-- BUF_CAP, the constant of the register CAP (R5, R33); no step changes it. -/
  bufCap : Nat
  /-- MLEN, the message length in bytes (R27). -/
  mlen : Word
  /-- PLEN, the padded length in bytes (R28). -/
  plen : Word
  /-- NBLK, the number of blocks (R29). -/
  nblk : Word
  /-- BLKIDX, the index of the block being compressed (R30). -/
  blkidx : Word
  /-- T, the round index, bits 6:0 of RCNT (R31). -/
  t : BitVec 7
  /-- H[0..4] (R32). -/
  h : Digest
  /-- A, B, C, D, E (R34). -/
  work : Working
  /-- W[0..79], hidden (R36). -/
  w : Vector Word 80
  /-- PHASE, the next micro-operation (R24; 30_encoding.md R95). -/
  phase : BitVec 4
  /-- CHAIN (R37). -/
  chain : Bool
  /-- DONE (R25). -/
  done : Bool
  /-- ERR (R26). -/
  err : Bool
  /-- ERRCODE (R26; 60_exceptions.md R201). -/
  errcode : BitVec 4
  /-- BUF, the bytes written since reset (20_memory.md R60, R76). -/
  buf : Memory
  /-- The number of the next draw of unspecified BUF bytes (log 3). -/
  draws : Nat
  /-- The inputs still to come, in the order of the interleaving (00_scope.md R6, 20_memory.md R73; log 1). -/
  agenda : List Event
  /-- The values the host's reads have returned, newest first (20_memory.md R62; log 2). -/
  replies : List Word
deriving DecidableEq, Repr

/-- Why the machine stops. None of these happens in a state that a run from reset reaches. -/
inductive Fault where
  /-- An engine step meets PHASE 6 to 15 (30_encoding.md R96 asks for this fault). Raised by `engineStep`. Safe. -/
  | reservedPhase
  /-- A host read of STATUS meets ERRCODE 2 to 15 (93_implementation_defined.md asks for a fault). Raised by `hostRead`. Safe (log 6). -/
  | reservedErrCode
  /-- uop.PAD or uop.SCHED would leave BUF (00_scope.md R11, 20_memory.md R67). Raised by their meanings. Safe (log 7). -/
  | outsideBuf
  /-- uop.ROUND meets T >= 80, where W[T], f and K do not exist (42_rounds.md R142). Raised by its meaning. Safe (log 8). -/
  | roundIndexOutOfRange
deriving DecidableEq, Repr

/-- Why an instruction has no meaning. -/
inductive Refusal where
  /-- The instruction is not modelled. Raised by no arm of `exec`. Safe. -/
  | notModelled (mnemonic : String)
deriving DecidableEq, Repr

/-- What a step answers. -/
abbrev Result := Host.Outcome State Fault Refusal

/-- The machine right after reset with BUF_CAP = c (10_state.md R20, 70_reset_and_hazards.md R220, R222). -/
def State.resetAt (c : Nat) : State where
  bufCap := c
  mlen := 0
  plen := 0
  nblk := 0
  blkidx := 0
  t := 0
  h := iv
  work := ⟨0, 0, 0, 0, 0⟩
  w := Vector.replicate 80 0
  phase := Phase.idle
  chain := false
  done := false
  err := false
  errcode := 0
  buf := []
  draws := 0
  agenda := []
  replies := []

/-- The machine right after reset; BUF_CAP is the value of the spec's examples (log 4). -/
def State.reset : State := State.resetAt Config.exampleCap

end Sys2Proof.Machine
end

