-- ==== Sys2Proof/Machine/Operands.lean ====
section
/-!
DEFINITION. The operands. Commands and micro-operations have no operand field (30_encoding.md R90, R93): their operands are
MLEN, PLEN and BUF. Here is how BUF is read and written (00_scope.md R11), and the lengths as numbers.
-/
namespace Sys2Proof.Machine

/-- BUF[i]: the byte written there, or else the byte of this draw (20_memory.md R76; log 3). -/
def State.bufByte (s : State) (i : Nat) : Byte := (s.buf.byteAt? i).getD (Config.freeByte s.draws i)

/-- MemRead(i, 4) (00_scope.md R11). -/
def State.bufWord (s : State) (i : Nat) : Word :=
  be32 (s.bufByte i) (s.bufByte (i + 1)) (s.bufByte (i + 2)) (s.bufByte (i + 3))

/-- One read of BUF has been made: the next one draws anew (20_memory.md R76; log 3). -/
def State.drawn (s : State) : State := { s with draws := s.draws + 1 }

/-- Store bytes into BUF from index i, big-endian values being given as their bytes (00_scope.md R11, MemWrite). -/
def State.storeBytes (s : State) (i : Nat) (bs : List Byte) : State := { s with buf := s.buf.setBytes i bs }

/-- The message length MLEN as a number (30_encoding.md R93). -/
def State.messageLength (s : State) : Nat := s.mlen.toNat

/-- The first byte of block BLKIDX (41_schedule.md R132). -/
def State.blockBase (s : State) : Nat := 64 * s.blkidx.toNat

/-- The largest MLEN is BUF_CAP - 9 (10_state.md R27): a larger value is ignored. -/
def State.writeMlen (s : State) (v : Word) : State := if v.toNat + 9 ≤ s.bufCap then { s with mlen := v } else s

/-- The largest PLEN is BUF_CAP (10_state.md R28): a larger value is ignored. -/
def State.writePlen (s : State) (v : Word) : State := if v.toNat ≤ s.bufCap then { s with plen := v } else s

end Sys2Proof.Machine
end

