-- ==== Sys2Proof/Machine/Flags.lean ====
section
/-!
DEFINITION. The flags DONE and ERR with ERRCODE and CHAIN, and the word STATUS that shows them (10_state.md R24 to R26, R37, R39).
No micro-operation sets a flag as a side effect of arithmetic (R39).
-/
namespace Sys2Proof.Machine

/-- BUSY reads as PHASE is not 0 (10_state.md R24). -/
def State.busy (s : State) : Bool := s.phase != Phase.idle

/-- STATUS (10_state.md R24): bits 31:13 are 0, then CHAIN, ERRCODE, PHASE, a 0, ERR, DONE, BUSY. -/
def State.statusWord (s : State) : Word :=
  0#19 ++ BitVec.ofBool s.chain ++ s.errcode ++ s.phase ++ 0#1 ++ BitVec.ofBool s.err ++ BitVec.ofBool s.done
    ++ BitVec.ofBool s.busy

/-- A PAD, COMPUTE or HASH is accepted: DONE, ERR and ERRCODE are cleared, CHAIN is set as given, and the first
micro-operation is chosen (44_commands.md R180). -/
def State.accept (s : State) (chain : Bool) (first : BitVec 4) : State :=
  { s with done := false, err := false, errcode := 0, chain := chain, phase := first }

/-- The running command completes without error: DONE <- 1, phase <- IDLE (10_state.md R25). -/
def State.complete (s : State) : State := { s with done := true, phase := Phase.idle }

/-- phase <- P (00_scope.md R11). -/
def State.goto (s : State) (p : BitVec 4) : State := { s with phase := p }

/-- CHAIN <- 0 and on to CHECK, at the end of the PAD of a HASH (10_state.md R37). -/
def State.unchain (s : State) : State := { s with chain := false, phase := Phase.check }

end Sys2Proof.Machine
end

