-- ==== Sys2Proof/Machine/Registers.lean ====
section
/-!
DEFINITION. The interface registers: their host offsets and what a read returns (10_state.md R20, R22 to R35).
-/
namespace Sys2Proof.Machine

/-- The registers with a host offset (10_state.md R20). -/
inductive Reg where
  | id | cmd | status | mlen | plen | nblk | blkidx | rcnt
  | h0 | h1 | h2 | h3 | h4 | cap
  | a | b | c | d | e
deriving DecidableEq, Repr

namespace Reg

/-- Every register, in the order of R20's table. -/
def all : List Reg := [id, cmd, status, mlen, plen, nblk, blkidx, rcnt, h0, h1, h2, h3, h4, cap, a, b, c, d, e]

/-- The host offset (10_state.md R20). -/
def offset : Reg → Word
  | id => 0x000
  | cmd => 0x004
  | status => 0x008
  | mlen => 0x00C
  | plen => 0x010
  | nblk => 0x014
  | blkidx => 0x018
  | rcnt => 0x01C
  | h0 => 0x020
  | h1 => 0x024
  | h2 => 0x028
  | h3 => 0x02C
  | h4 => 0x030
  | cap => 0x034
  | a => 0x040
  | b => 0x044
  | c => 0x048
  | d => 0x04C
  | e => 0x050

/-- The register at an aligned host address, if there is one. -/
def ofAddr (addr : Word) : Option Reg := all.find? fun r => r.offset == addr

/-- What a host read of the register returns; CMD has no storage and reads 0 (10_state.md R23), RCNT holds T in bits 6:0 (R31). -/
def value (s : State) : Reg → Word
  | id => Config.idValue
  | cmd => 0
  | status => s.statusWord
  | mlen => s.mlen
  | plen => s.plen
  | nblk => s.nblk
  | blkidx => s.blkidx
  | rcnt => s.t.zeroExtend 32
  | h0 => s.h.h0
  | h1 => s.h.h1
  | h2 => s.h.h2
  | h3 => s.h.h3
  | h4 => s.h.h4
  | cap => BitVec.ofNat 32 s.bufCap
  | a => s.work.a
  | b => s.work.b
  | c => s.work.c
  | d => s.work.d
  | e => s.work.e

end Reg

end Sys2Proof.Machine
end

