-- ==== Sys2Proof/Machine/Ops.lean ====
section
/-!
DEFINITION. The shared operations: the one error, starting a command, a host access, an engine step, reset, and one step of
the machine. The meaning of an instruction comes in as the argument `run`, which Step.lean gives as `exec`.
-/
namespace Sys2Proof.Machine

/-! ### The one error -/

/-- raise AlignmentError: ERR <- 1, ERRCODE <- 1, phase <- IDLE and nothing else (60_exceptions.md R200, R203). The core has
no other exception, no entry that saves state and no return (R205, R208). -/
def State.raiseAlignmentError (s : State) : State := { s with err := true, errcode := 1, phase := Phase.idle }

/-! ### Commands -/

/-- A PAD, COMPUTE or HASH presented to the core: accepted while idle (44_commands.md R180), ignored while busy (20_memory.md R64). -/
def startCommand (chain : Bool) (first : BitVec 4) (s : State) : Result :=
  if s.phase = Phase.idle then .next (s.accept chain first) else .next s

/-- CommandAccept(v): a defined word runs its command, a reserved word is ignored (44_commands.md R180, R186). -/
def commandAccept (run : Instr → State → Result) (v : Word) (s : State) : Result :=
  match decode (.cmd v) with
  | .ok i => run i s
  | .error _ => .next s

/-! ### Host accesses -/

/-- addr[31:2] || 0b00 (20_memory.md R65). -/
def alignWord (addr : Word) : Word := addr.extractLsb' 2 30 ++ 0#2

/-- Whether an aligned host address reaches BUF (20_memory.md R61). -/
def State.inBuf (s : State) (a : Word) : Bool :=
  Config.bufBase ≤ a.toNat && decide (a.toNat < Config.bufBase + s.bufCap)

/-- The BUF index of a host address in BUF (20_memory.md R61). -/
def bufIndex (a : Word) : Nat := a.toNat - Config.bufBase

/-- The value of HostRead(addr): a register, a word of BUF, or 0 for reserved and unmapped addresses (20_memory.md R62; 10_state.md R38). -/
def hostReadValue (addr : Word) (s : State) : Word :=
  match Reg.ofAddr (alignWord addr) with
  | some r => r.value s
  | none => if s.inBuf (alignWord addr) then s.bufWord (bufIndex (alignWord addr)) else 0

/-- The host has been given the value v of its read of addr; a read of BUF uses up a draw (log 2, log 3). -/
def State.reply (s : State) (addr v : Word) : State :=
  { s with
    replies := v :: s.replies
    draws := if s.inBuf (alignWord addr) then s.draws + 1 else s.draws }

/-- ERRCODE holds a value that is never produced (60_exceptions.md R201). -/
def State.errcodeReserved (s : State) : Bool := 1#4 < s.errcode

/-- HostRead(addr), allowed in any phase, changing nothing of the core (20_memory.md R62, R70). -/
def hostRead (addr : Word) (s : State) : Result :=
  if alignWord addr = Reg.offset .status ∧ s.errcodeReserved then .fault .reservedErrCode
  else .next (s.reply addr (hostReadValue addr s))

/-- HostWrite(addr, v) (20_memory.md R63, R64). -/
def hostWrite (run : Instr → State → Result) (addr v : Word) (s : State) : Result :=
  if s.phase ≠ Phase.idle then .next s
  else if alignWord addr = Reg.offset .cmd then commandAccept run v s
  else if alignWord addr = Reg.offset .mlen then .next (s.writeMlen v)
  else if alignWord addr = Reg.offset .plen then .next (s.writePlen v)
  else if s.inBuf (alignWord addr) then .next (s.storeBytes (bufIndex (alignWord addr)) (be32Bytes v))
  else .next s

/-- One host access, one atomic step (20_memory.md R69). -/
def hostAccess (run : Instr → State → Result) (x : Access) (s : State) : Result :=
  match x with
  | .read addr => hostRead addr s
  | .write addr v => hostWrite run addr v s

/-! ### The engine -/

/-- EngineStep: the micro-operation PHASE selects; none while idle; a fault for a reserved PHASE (44_commands.md R181). -/
def engineStep (run : Instr → State → Result) (s : State) : Result :=
  match decode (.phase s.phase) with
  | .ok i => run i s
  | .error .noMicroOperation => .next s
  | .error _ => .fault .reservedPhase

/-! ### Reset -/

/-- Reset between two steps: every element at its reset value, BUF unspecified, a running command abandoned
(70_reset_and_hazards.md R220 to R222). What is outside the core stays: BUF_CAP, the inputs to come, the values already
returned, and the count of draws, so that a byte read before reset says nothing of it after (log 10). -/
def State.resetEvent (s : State) : State :=
  { State.resetAt s.bufCap with draws := s.draws, agenda := s.agenda, replies := s.replies }

/-! ### One step -/

/-- What an event does (00_scope.md R6). -/
def performEvent (run : Instr → State → Result) (e : Event) (s : State) : Result :=
  match e with
  | .bus x => hostAccess run x s
  | .engine => engineStep run s
  | .reset => .next s.resetEvent

/-- The first event of the agenda is taken off it. -/
def State.withAgenda (s : State) (l : List Event) : State := { s with agenda := l }

/-- One step: the next event, or an engine step where no input is to come (44_commands.md R181; log 1). -/
def stepWith (run : Instr → State → Result) (s : State) : Result :=
  match s.agenda with
  | [] => engineStep run s
  | e :: rest => performEvent run e (s.withAgenda rest)

/-- The state whose next step runs the code (log 5): a command is the host's next write to CMD, on an idle core; a
micro-operation is the engine's next step with PHASE selecting it. -/
def State.placeCode (s : State) : Code → State
  | .cmd v => { s with phase := Phase.idle, agenda := .bus (.write (Reg.offset .cmd) v) :: s.agenda }
  | .phase p => { s with phase := p, agenda := .engine :: s.agenda }

/-- The state whose next step runs an opcode-table row (log 5, log 11). -/
def State.placeTableWord (s : State) (nbits w : Nat) : State :=
  match tableCode nbits w with
  | some c => s.placeCode c
  | none => s

end Sys2Proof.Machine
end

