-- ==== Sys2Proof/Machine/Accumulator.lean ====
section
/-!
DEFINITION. The meaning of uop.ACCUM (43_accumulator.md R161, R162).
-/
namespace Sys2Proof.Machine

/-- H[i] <- H[i] + (A..E)[i], BLKIDX <- BLKIDX + 1 (43_accumulator.md R161). -/
def State.accumulated (s : State) : State := { s with h := s.h.add s.work, blkidx := s.blkidx + 1 }

/-- uop.ACCUM: add the working registers into H, then done after the last block or on to the next (43_accumulator.md R161). -/
def execUopAccum (s : State) : Result :=
  if s.blkidx + 1 = s.nblk then .next s.accumulated.complete
  else .next (s.accumulated.goto Phase.sched)

end Sys2Proof.Machine
end

