-- ==== Sys2Proof/Machine/Commands.lean ====
section
/-!
DEFINITION. The meanings of the four commands (44_commands.md R182 to R185). A command only starts the engine: what follows
are micro-operations of their own.
-/
namespace Sys2Proof.Machine

/-- NOP: no state changes (44_commands.md R182). -/
def execNop (s : State) : Result := .next s

/-- PAD: CHAIN <- 0, the engine starts at PAD (44_commands.md R183). -/
def execPad (s : State) : Result := startCommand false Phase.pad s

/-- COMPUTE: CHAIN <- 0, the engine starts at CHECK (44_commands.md R184). -/
def execCompute (s : State) : Result := startCommand false Phase.check s

/-- HASH: CHAIN <- 1, the engine starts at PAD (44_commands.md R185). -/
def execHash (s : State) : Result := startCommand true Phase.pad s

end Sys2Proof.Machine
end

