-- ==== Sys2Proof/Machine/Padder.lean ====
section
/-!
DEFINITION. The meanings of uop.PAD and uop.CHECK (40_padder.md R115, R118).
-/
namespace Sys2Proof.Machine

/-- BUF and PLEN after PAD: the tail at BUF[L], PLEN <- N (40_padder.md R115). -/
def State.padded (s : State) : State :=
  { s.storeBytes s.messageLength (padTail s.messageLength) with plen := BitVec.ofNat 32 (paddedLength s.messageLength) }

/-- uop.PAD: pad BUF in place, then on to CHECK for a HASH or done for a PAD (40_padder.md R115). A padded length beyond
BUF_CAP, which R116 rules out of every run, is a fault (log 7). -/
def execUopPad (s : State) : Result :=
  if s.bufCap < paddedLength s.messageLength then .fault .outsideBuf
  else if s.chain then .next s.padded.unchain
  else .next s.padded.complete

/-- The compressor starts: NBLK <- PLEN / 64, BLKIDX <- 0, H <- IV (40_padder.md R118). -/
def State.loadIv (s : State) : State :=
  { s with nblk := BitVec.ofNat 32 (s.plen.toNat / 64), blkidx := 0, h := iv }

/-- uop.CHECK: AlignmentError unless PLEN is a multiple of 64; with no block it completes at once (40_padder.md R118). -/
def execUopCheck (s : State) : Result :=
  if s.plen.toNat % 64 ≠ 0 then .next s.raiseAlignmentError
  else if s.plen.toNat / 64 = 0 then .next s.loadIv.complete
  else .next (s.loadIv.goto Phase.sched)

end Sys2Proof.Machine
end

