-- ==== Sys2Proof/Machine/Rounds.lean ====
section
/-!
DEFINITION. The meaning of uop.ROUND (42_rounds.md R143).
-/
namespace Sys2Proof.Machine

/-- A..E after round T with the schedule word W[T], T <- T + 1 (42_rounds.md R143). -/
def State.rounded (s : State) (wt : Word) : State :=
  { s with work := roundStep s.t.toNat wt s.work, t := s.t + 1 }

/-- uop.ROUND: one round, then ROUND again, or ACCUM after round 79 (42_rounds.md R143). T >= 80, which 10_state.md R40
rules out of every run, is a fault (log 8). -/
def execUopRound (s : State) : Result :=
  if h : s.t.toNat < 80 then
    .next ((s.rounded s.w[s.t.toNat]).goto (if s.t + 1 = 80#7 then Phase.accum else Phase.round))
  else .fault .roundIndexOutOfRange

end Sys2Proof.Machine
end

