-- ==== Sys2Proof/Machine/Schedule.lean ====
section
/-!
DEFINITION. The meaning of uop.SCHED (41_schedule.md R132).
-/
namespace Sys2Proof.Machine

/-- W from block BLKIDX, A..E <- H, T <- 0 (41_schedule.md R132). -/
def State.scheduled (s : State) : State :=
  { s with
    w := schedule fun k => s.bufWord (s.blockBase + 4 * k)
    work := Working.ofDigest s.h
    t := 0 }

/-- uop.SCHED: expand the schedule and load the working registers (41_schedule.md R132). A block beyond BUF, which
10_state.md R40 rules out of every run, is a fault (log 7). -/
def execUopSched (s : State) : Result :=
  if s.bufCap < s.blockBase + 64 then .fault .outsideBuf
  else .next (s.scheduled.drawn.goto Phase.round)

end Sys2Proof.Machine
end

