-- ==== Sys2Proof/Machine/Dispatch.lean ====
section
/-! DEFINITION. The meaning of every instruction, one arm per row of spec/opcode_table.json. -/
namespace Sys2Proof.Machine

/-- The meaning of an instruction. -/
def exec (i : Instr) (s : State) : Host.Outcome State Fault Refusal :=
  match i with
  | .nop => Sys2Proof.Machine.execNop s
  | .pad => Sys2Proof.Machine.execPad s
  | .compute => Sys2Proof.Machine.execCompute s
  | .hash => Sys2Proof.Machine.execHash s
  | .uopPad => Sys2Proof.Machine.execUopPad s
  | .uopCheck => Sys2Proof.Machine.execUopCheck s
  | .uopSched => Sys2Proof.Machine.execUopSched s
  | .uopRound => Sys2Proof.Machine.execUopRound s
  | .uopAccum => Sys2Proof.Machine.execUopAccum s

end Sys2Proof.Machine
end

