-- ==== Sys2Proof/Machine/Step.lean ====
section
/-! DEFINITION. One step of the machine: `Ops.stepWith` with `exec` as the meaning of an instruction. -/
namespace Sys2Proof.Machine

/-- One step (00_scope.md R6). -/
def step : State → Host.Outcome State Fault Refusal := stepWith exec

/-- The state whose next step runs the opcode-table row (log 5). -/
def State.withFetchWord (s : State) (nbits w : Nat) : State := s.placeTableWord nbits w

end Sys2Proof.Machine
end

