-- ==== Sys2Proof/Machine/HostProgram.lean ====
section
/-!
DEFINITION. The host's side: transactions, program lines, pseudo-instructions and host control flow (30_encoding.md R97 to R99).
A layer over the machine: a line that accesses the bus is one event handed to `step`, and no meaning of the core is changed.
Names and labels are numbers (log 9).
-/
namespace Sys2Proof.Machine

/-- The kind of a transaction (30_encoding.md R97). -/
inductive TransactionKind where
  | R
  | W
deriving DecidableEq, Repr

/-- A host transaction, the triple (kind, addr, data): data is the value written or returned (30_encoding.md R97). -/
structure Transaction where
  kind : TransactionKind
  addr : Word
  data : Word
deriving DecidableEq, Repr

/-- A line of a host program (30_encoding.md R98). -/
inductive HostLine where
  /-- `WR addr, value` -/
  | wr (addr value : Word)
  /-- `RD addr -> name` -/
  | rd (addr : Word) (name : Nat)
  /-- `label:` -/
  | label (l : Nat)
  /-- `BR name.field != 0, label`, the field being bits hi down to lo -/
  | br (name hi lo l : Nat)
  /-- `CHECK name == value` -/
  | check (name : Nat) (value : Word)
deriving DecidableEq, Repr

/-- The bus event of a line that accesses the bus; the other lines are host control flow and no transaction (30_encoding.md R98). -/
def HostLine.event? : HostLine → Option Event
  | .wr addr v => some (.bus (.write addr v))
  | .rd addr _ => some (.bus (.read addr))
  | .label _ => none
  | .br _ _ _ _ => none
  | .check _ _ => none

/-- The bus events of some lines in order. -/
def busEvents (lines : List HostLine) : List Event := lines.filterMap HostLine.event?

/-! ### Pseudo-instructions (30_encoding.md R99) -/

/-- The bytes of a text, ASCII, one per character (00_scope.md R12). DESIGN CHOICE (log 14): a character outside ASCII, for
which the spec states no byte, gives its code point modulo 256. -/
def asciiBytes (text : String) : List Byte := text.toList.map fun c => BitVec.ofNat 8 c.toNat

/-- The words of a message: BE32 of consecutive bytes, bytes past the end taken as 0 (30_encoding.md R99). -/
def packWords : List Byte → List Word
  | [] => []
  | [b0] => [be32 b0 0 0 0]
  | [b0, b1] => [be32 b0 b1 0 0]
  | [b0, b1, b2] => [be32 b0 b1 b2 0]
  | b0 :: b1 :: b2 :: b3 :: rest => be32 b0 b1 b2 b3 :: packWords rest

/-- The host address BUF+j (30_encoding.md R98). DESIGN CHOICE (log 16): for j >= 2^31, beyond every buffer and past the 32-bit
address space, the address is taken modulo 2^32. -/
def bufAddr (j : Nat) : Word := BitVec.ofNat 32 (Config.bufBase + j)

/-- Word writes to BUF+j, BUF+j+4, ... -/
def loadWords : (j : Nat) → List Word → List HostLine
  | _, [] => []
  | j, v :: vs => .wr (bufAddr j) v :: loadWords (j + 4) vs

/-- `LOADMSG m`; it needs m.length <= MSG_CAP (`WellFormed.loadMessage`). DESIGN CHOICE (log 16): the expansion does not check that.
For a longer message, of which the spec says nothing, it is the same lines, with BUF+j and the length modulo 2^32. -/
def loadMsg (m : List Byte) : List HostLine :=
  loadWords 0 (packWords m) ++ [.wr (Reg.offset .mlen) (BitVec.ofNat 32 m.length)]

/-- `CMD mnemonic`; a micro-operation is not host-writable and has no line. -/
def cmdLine (i : Instr) : List HostLine :=
  match encode i with
  | .cmd v => [.wr (Reg.offset .cmd) v]
  | .phase _ => []

/-- `POLL -> s`, with the fresh label given. -/
def pollLines (fresh s : Nat) : List HostLine :=
  [.label fresh, .rd (Reg.offset .status) s, .br s 0 0 fresh]

/-- `READDIGEST -> n, n+1, ..., n+4`. -/
def readDigestLines (n : Nat) : List HostLine :=
  [.rd (Reg.offset .h0) n, .rd (Reg.offset .h1) (n + 1), .rd (Reg.offset .h2) (n + 2),
   .rd (Reg.offset .h3) (n + 3), .rd (Reg.offset .h4) (n + 4)]

/-! ### Running a host program beside the core -/

/-- A host running a program on a core. -/
structure HostRun where
  core : State
  program : List HostLine
  /-- The index of the host's next line. -/
  line : Nat
  /-- The values bound by `RD`, newest first. -/
  bound : List (Nat × Word)
  /-- A `CHECK` failed, or a name or label is missing: the host has aborted (30_encoding.md R98; log 9). -/
  aborted : Bool
  /-- The transactions so far, newest first (30_encoding.md R97). -/
  trace : List Transaction
deriving DecidableEq, Repr

namespace HostRun

/-- The value bound to a name. -/
def value? (r : HostRun) (name : Nat) : Option Word := (r.bound.find? fun p => p.1 == name).map (·.2)

/-- The index of a label's line. -/
def target? (r : HostRun) (l : Nat) : Option Nat := r.program.findIdx? (· == HostLine.label l)

/-- Bits hi down to lo of a value (00_scope.md R7). -/
def bits (v : Word) (hi lo : Nat) : Nat := v.toNat / 2 ^ lo % 2 ^ (hi + 1 - lo)

/-- The core performs one event now. -/
def perform (r : HostRun) (e : Event) (k : State → HostRun) : Host.Outcome HostRun Fault Refusal :=
  match step (r.core.withAgenda (e :: r.core.agenda)) with
  | .next t => .next (k t)
  | .fault f => .fault f
  | .refused x => .refused x

/-- The host aborts (30_encoding.md R98). -/
def abort (r : HostRun) : HostRun := { r with aborted := true }

/-- The host runs its next line (30_encoding.md R98). After its last line, or aborted, it does nothing more. -/
def hostTurn (r : HostRun) : Host.Outcome HostRun Fault Refusal :=
  if r.aborted then .next r
  else match r.program[r.line]? with
  | none => .next r
  | some (.wr addr v) =>
    r.perform (.bus (.write addr v)) fun t =>
      { r with core := t, line := r.line + 1, trace := ⟨.W, addr, v⟩ :: r.trace }
  | some (.rd addr name) =>
    r.perform (.bus (.read addr)) fun t =>
      { r with
        core := t, line := r.line + 1
        bound := (name, t.replies.headD 0) :: r.bound, trace := ⟨.R, addr, t.replies.headD 0⟩ :: r.trace }
  | some (.label _) => .next { r with line := r.line + 1 }
  | some (.br name hi lo l) =>
    match r.value? name, r.target? l with
    | some v, some k => .next { r with line := if bits v hi lo = 0 then r.line + 1 else k }
    | _, _ => .next r.abort
  | some (.check name v) =>
    if r.value? name = some v then .next { r with line := r.line + 1 } else .next r.abort

/-- The engine takes its step (44_commands.md R181). -/
def engineTurn (r : HostRun) : Host.Outcome HostRun Fault Refusal :=
  r.perform .engine fun t => { r with core := t }

/-- Reset of the core; the host's own program is outside it (70_reset_and_hazards.md R220). -/
def resetTurn (r : HostRun) : Host.Outcome HostRun Fault Refusal :=
  r.perform .reset fun t => { r with core := t }

end HostRun

end Sys2Proof.Machine
end

