-- ==== Sys2Proof/Safety.lean ====
section
/-!
DEFINITION. What a good state and a safe step are, in the terms claims use.
-/
namespace Sys2Proof.Machine

/-- The invariant of 10_state.md R40, with what makes it hold step by step: a legal capacity (00_scope.md R5), no flag set
while busy (44_commands.md R180), ERR set exactly with ERRCODE 1 (10_state.md R24, R26), and BUF in canonical form inside
its capacity (20_memory.md R60). -/
structure State.Inv (s : State) : Prop where
  capLegal : Config.legalCap s.bufCap
  phaseDefined : s.phase.toNat ≤ 5
  chainOnlyInPad : s.chain = true → s.phase = Phase.pad
  roundIndexBound : s.t.toNat ≤ 80
  blockIndexBound : s.blkidx.toNat ≤ s.nblk.toNat
  blockCountBound : s.nblk.toNat ≤ s.bufCap / 64
  mlenLegal : s.mlen.toNat + 9 ≤ s.bufCap
  plenLegal : s.plen.toNat ≤ s.bufCap
  compressing : s.phase = Phase.sched ∨ s.phase = Phase.round ∨ s.phase = Phase.accum →
    s.plen.toNat % 64 = 0 ∧ s.nblk.toNat = s.plen.toNat / 64 ∧ s.blkidx.toNat < s.nblk.toNat
  roundIndexInRound : s.phase = Phase.round → s.t.toNat < 80
  roundIndexInAccum : s.phase = Phase.accum → s.t.toNat = 80
  flagsExclusive : ¬(s.done = true ∧ s.err = true)
  errHasCode : s.err = true ↔ s.errcode = 1#4
  errcodeDefined : s.errcode = 0#4 ∨ s.errcode = 1#4
  noFlagWhileBusy : s.phase ≠ Phase.idle → s.done = false ∧ s.err = false
  bufCanonical : s.buf.wf
  bufInside : s.buf.within s.bufCap

/-- What the next step performs: the first event of the agenda, or an engine step where none is listed (log 1). -/
def State.nextEvent (s : State) : Event := s.agenda.headD .engine

/-- The state with its next event taken off the agenda and nothing else changed. -/
def State.popped (s : State) : State := { s with agenda := s.agenda.tail }

/-- The host address of the word an access reaches, as a number (20_memory.md R65). -/
def wordAddr (addr : Word) : Nat := addr.toNat / 4 * 4

/-- BUF[0..m.length) holds the message m (20_memory.md R60). -/
def State.Holds (s : State) (m : List Byte) : Prop :=
  ∀ i, (h : i < m.length) → s.buf.byteAt? i = some m[i]

/-- An idle core whose next and last input is the command word v. -/
def State.AboutToRun (s : State) (v : Word) : Prop :=
  s.phase = Phase.idle ∧ s.agenda = [.bus (.write (Reg.offset .cmd) v)]

/-- The next step accepts a PAD, COMPUTE or HASH: such a word is written to CMD while idle (44_commands.md R180). -/
def State.AcceptsCommand (s : State) : Prop :=
  s.phase = Phase.idle ∧ ∃ addr v, s.nextEvent = .bus (.write addr v) ∧ wordAddr addr = 0x004 ∧ 1 ≤ v.toNat ∧ v.toNat ≤ 3

/-- k steps, stopping at the first fault or refusal. -/
def run : Nat → State → Result
  | 0, s => .next s
  | k + 1, s =>
    match step s with
    | .next t => run k t
    | .fault r => .fault r
    | .refused r => .refused r

/-- A safe outcome: the machine goes on. -/
def Safe (o : Result) : Prop := ∃ t, o = .next t

end Sys2Proof.Machine
end

