-- ==== Sys2Proof/Certificates/Slice0/Obligations.lean ====
section
/-!
DEFINITION. The statements for the provers. Each docstring says which rule of spec/ it formalises.
Addresses, lengths and sums are written as numbers where the meanings use bit operations.
-/

open Sys2Proof Sys2Proof.Machine

/-! ### Encoding -/

/-- 30_encoding.md R91, R92: a word decodes to a command exactly when it is one of the four listed words. -/
def Obligations.CommandWordDecodesExactlyWhenListed : Prop :=
  ∀ (v : Word) (i : Instr), decode (.cmd v) = .ok i ↔
    (v.toNat = 0 ∧ i = .nop) ∨ (v.toNat = 1 ∧ i = .pad) ∨ (v.toNat = 2 ∧ i = .compute) ∨ (v.toNat = 3 ∧ i = .hash)

/-- 30_encoding.md R95, R96: PHASE 1 to 5 select the five micro-operations, 0 none, and 6 to 15 are reserved. -/
def Obligations.PhaseCodeSelectsMicroOperation : Prop :=
  ∀ p : BitVec 4, decode (.phase p) =
    match p.toNat with
    | 0 => .error .noMicroOperation
    | 1 => .ok .uopPad
    | 2 => .ok .uopCheck
    | 3 => .ok .uopSched
    | 4 => .ok .uopRound
    | 5 => .ok .uopAccum
    | _ => .error .reservedPhase

/-- 30_encoding.md R91, R95: decoding and encoding agree in both directions, over every word and every PHASE. -/
def Obligations.DecodeEncodeAgree : Prop :=
  ∀ (c : Code) (i : Instr), decode c = .ok i ↔ c = encode i

/-- 30_encoding.md R91, R95: words written out from the tables decode to their instructions. That an opcode-table PHASE row is
read as the low four bits of one byte, in the last clause, is the model's reading (log 11). -/
def Obligations.SampleWordsDecode : Prop :=
  decode (.cmd 0b00000000000000000000000000000000#32) = .ok .nop ∧
  decode (.cmd 0b00000000000000000000000000000001#32) = .ok .pad ∧
  decode (.cmd 0b00000000000000000000000000000010#32) = .ok .compute ∧
  decode (.cmd 0b00000000000000000000000000000011#32) = .ok .hash ∧
  decode (.phase 0b0001#4) = .ok .uopPad ∧ decode (.phase 0b0100#4) = .ok .uopRound ∧
  decode (.cmd 0b00000000000000000000000000010010#32) = .error .reservedCommand ∧
  decodeTableWord 32 2 = some .compute ∧ decodeTableWord 8 5 = some .uopAccum

/-! ### A step -/

/-- 44_commands.md R180, R181: a step runs the decoded instruction, on the state with its event taken off the agenda: a
defined command word written to CMD while idle, and the micro-operation PHASE selects. -/
def Obligations.StepRunsTheDecodedInstruction : Prop :=
  (∀ (s : State) (addr v : Word) (i : Instr), s.nextEvent = .bus (.write addr v) → wordAddr addr = 0x004 →
    s.phase = 0#4 → decode (.cmd v) = .ok i → step s = exec i s.popped) ∧
  (∀ (s : State) (i : Instr), s.nextEvent = .engine → decode (.phase s.phase) = .ok i → step s = exec i s.popped)

/-- The model's `withFetchWord` (log 5): the very next step runs the opcode-table row's instruction. -/
def Obligations.FetchWordRunsAsTheNextStep : Prop :=
  ∀ (s : State) (nbits w : Nat) (i : Instr), decodeTableWord nbits w = some i →
    step (s.withFetchWord nbits w) = exec i { s with phase := if nbits = 32 then 0#4 else BitVec.ofNat 4 w }

/-- 44_commands.md R181, 60_exceptions.md R215: while idle the engine has no step, and all state is kept. -/
def Obligations.IdleEngineKeepsAllState : Prop :=
  ∀ s : State, s.phase = 0#4 → s.nextEvent = .engine → step s = .next s.popped

/-- 30_encoding.md R96: an engine step in a reserved PHASE is a fault. -/
def Obligations.ReservedPhaseStopsTheEngine : Prop :=
  ∀ s : State, 6 ≤ s.phase.toNat → s.nextEvent = .engine → step s = .fault .reservedPhase

/-! ### Commands -/

/-- 44_commands.md R182: NOP changes no state, idle or busy. -/
def Obligations.NopChangesNothing : Prop :=
  decode (.cmd 0x00000000#32) = .ok .nop ∧ ∀ s : State, exec .nop s = .next s

/-- 44_commands.md R183 to R185 with R180, 20_memory.md R64: PAD, COMPUTE and HASH complete in every state; idle they clear
the flags, set CHAIN and choose the first micro-operation, and nothing else changes; busy they are ignored (log 13: what
`exec` does there is the model's reading, and no step asks it). -/
def Obligations.StartingCommandsComplete : Prop :=
  (∀ s : State, s.phase = 0#4 →
    exec .pad s = .next { s with done := false, err := false, errcode := 0#4, chain := false, phase := 1#4 } ∧
    exec .compute s = .next { s with done := false, err := false, errcode := 0#4, chain := false, phase := 2#4 } ∧
    exec .hash s = .next { s with done := false, err := false, errcode := 0#4, chain := true, phase := 1#4 }) ∧
  (∀ s : State, s.phase ≠ 0#4 → exec .pad s = .next s ∧ exec .compute s = .next s ∧ exec .hash s = .next s)

/-- 44_commands.md R180: CommandAccept, as a step: what each word written to CMD does while idle; while busy the write never
reaches it. -/
def Obligations.CommandAcceptance : Prop :=
  ∀ (s : State) (addr v : Word), s.nextEvent = .bus (.write addr v) → wordAddr addr = 0x004 →
    (s.phase ≠ 0#4 → step s = .next s.popped) ∧
    (s.phase = 0#4 → step s = .next (match v.toNat with
      | 1 => { s.popped with done := false, err := false, errcode := 0#4, chain := false, phase := 1#4 }
      | 2 => { s.popped with done := false, err := false, errcode := 0#4, chain := false, phase := 2#4 }
      | 3 => { s.popped with done := false, err := false, errcode := 0#4, chain := true, phase := 1#4 }
      | _ => s.popped))

/-- 44_commands.md R186: a word with RSV not 0 or OP in 4 to 15 changes no state. -/
def Obligations.ReservedCommandWordChangesNothing : Prop :=
  ∀ (s : State) (addr v : Word), s.nextEvent = .bus (.write addr v) → wordAddr addr = 0x004 →
    (v.toNat / 16 ≠ 0 ∨ 4 ≤ v.toNat % 16) → step s = .next s.popped

/-! ### Host accesses -/

/-- 20_memory.md R63: HostWrite, case by case over the word's address. The bytes of BUF are said one by one, and every other
byte and every other element is unchanged. -/
def Obligations.HostWriteFollowsTheAddressMap : Prop :=
  ∀ (s : State) (addr v : Word), s.nextEvent = .bus (.write addr v) →
    (s.phase ≠ 0#4 → step s = .next s.popped) ∧
    (s.phase = 0#4 →
      (wordAddr addr = 0x004 →
        (∀ i, decode (.cmd v) = .ok i → step s = exec i s.popped) ∧
        (∀ e, decode (.cmd v) = .error e → step s = .next s.popped)) ∧
      (wordAddr addr = 0x00C →
        step s = .next (if v.toNat + 9 ≤ s.bufCap then { s.popped with mlen := v } else s.popped)) ∧
      (wordAddr addr = 0x010 →
        step s = .next (if v.toNat ≤ s.bufCap then { s.popped with plen := v } else s.popped)) ∧
      (2 ^ 31 ≤ wordAddr addr → wordAddr addr < 2 ^ 31 + s.bufCap →
        ∃ t, step s = .next t ∧ { t with buf := s.buf } = s.popped ∧
          (∀ k, k < 4 → t.buf.byteAt? (wordAddr addr - 2 ^ 31 + k) =
            some (BitVec.ofNat 8 (v.toNat / 256 ^ (3 - k)))) ∧
          (∀ i, i < wordAddr addr - 2 ^ 31 ∨ wordAddr addr - 2 ^ 31 + 4 ≤ i →
            t.buf.byteAt? i = s.buf.byteAt? i)) ∧
      (wordAddr addr ≠ 0x004 → wordAddr addr ≠ 0x00C → wordAddr addr ≠ 0x010 →
        wordAddr addr < 2 ^ 31 ∨ 2 ^ 31 + s.bufCap ≤ wordAddr addr → step s = .next s.popped))

/-- 20_memory.md R62 with the offsets of 10_state.md R20 and the fields of R24: HostRead returns the register, the BUF word
(any value for a byte that is not specified, R76) or 0, in any phase, and changes nothing of the core. The premise on
ERRCODE is about STATUS alone (log 6). -/
def Obligations.HostReadReturnsTheValueAndChangesNothing : Prop :=
  ∀ (s : State) (addr : Word), s.nextEvent = .bus (.read addr) → (wordAddr addr = 0x008 → s.errcode.toNat ≤ 1) →
    ∃ v t, step s = .next t ∧ t.replies = v :: s.replies ∧
      { t with replies := s.replies, draws := s.draws } = s.popped ∧
      (wordAddr addr = 0x000 → v = 0x53484131#32) ∧
      (wordAddr addr = 0x004 → v = 0#32) ∧
      (wordAddr addr = 0x008 → v.toNat = (if s.phase = 0#4 then 0 else 1) + 2 * s.done.toNat + 4 * s.err.toNat +
        16 * s.phase.toNat + 256 * s.errcode.toNat + 4096 * s.chain.toNat) ∧
      (wordAddr addr = 0x00C → v = s.mlen) ∧
      (wordAddr addr = 0x010 → v = s.plen) ∧
      (wordAddr addr = 0x014 → v = s.nblk) ∧
      (wordAddr addr = 0x018 → v = s.blkidx) ∧
      (wordAddr addr = 0x01C → v.toNat = s.t.toNat) ∧
      (wordAddr addr = 0x020 → v = s.h.h0) ∧
      (wordAddr addr = 0x024 → v = s.h.h1) ∧
      (wordAddr addr = 0x028 → v = s.h.h2) ∧
      (wordAddr addr = 0x02C → v = s.h.h3) ∧
      (wordAddr addr = 0x030 → v = s.h.h4) ∧
      (wordAddr addr = 0x034 → s.bufCap < 2 ^ 32 → v.toNat = s.bufCap) ∧
      (wordAddr addr = 0x040 → v = s.work.a) ∧
      (wordAddr addr = 0x044 → v = s.work.b) ∧
      (wordAddr addr = 0x048 → v = s.work.c) ∧
      (wordAddr addr = 0x04C → v = s.work.d) ∧
      (wordAddr addr = 0x050 → v = s.work.e) ∧
      (wordAddr addr = 0x038 ∨ wordAddr addr = 0x03C ∨ (0x054 ≤ wordAddr addr ∧ wordAddr addr < 2 ^ 31) ∨
        2 ^ 31 + s.bufCap ≤ wordAddr addr → v = 0#32) ∧
      (2 ^ 31 ≤ wordAddr addr → wordAddr addr < 2 ^ 31 + s.bufCap →
        ∃ b : Nat → Byte,
          v.toNat = (b 0).toNat * 2 ^ 24 + (b 1).toNat * 2 ^ 16 + (b 2).toNat * 2 ^ 8 + (b 3).toNat ∧
          ∀ k x, k < 4 → s.buf.byteAt? (wordAddr addr - 2 ^ 31 + k) = some x → b k = x)

/-- 93_implementation_defined.md, reserved encodings: a read of STATUS that meets ERRCODE 2 to 15 is a fault (log 6: where
the code is met is the model's reading). -/
def Obligations.ReservedErrCodeStopsAStatusRead : Prop :=
  ∀ (s : State) (addr : Word), s.nextEvent = .bus (.read addr) → wordAddr addr = 0x008 → 2 ≤ s.errcode.toNat →
    step s = .fault .reservedErrCode

/-- 20_memory.md R65: an access to any byte of a word is the access to the word: address bits 1:0 are ignored, and no
access stops the machine (the read premise is log 6). -/
def Obligations.LowAddressBitsAreIgnored : Prop :=
  ∀ (s : State) (addr addr' v : Word) (rest : List Event), addr.toNat / 4 = addr'.toNat / 4 → s.errcode.toNat ≤ 1 →
    step { s with agenda := .bus (.read addr) :: rest } = step { s with agenda := .bus (.read addr') :: rest } ∧
    step { s with agenda := .bus (.write addr v) :: rest } = step { s with agenda := .bus (.write addr' v) :: rest } ∧
    Safe (step { s with agenda := .bus (.read addr) :: rest }) ∧
    Safe (step { s with agenda := .bus (.write addr v) :: rest })

/-- 20_memory.md R66, R73: a word written to BUF while idle is what the host reads back at the same word. -/
def Obligations.WrittenBufWordReadsBack : Prop :=
  ∀ (s : State) (addr addr' v : Word) (rest : List Event), s.phase = 0#4 →
    s.agenda = .bus (.write addr v) :: .bus (.read addr') :: rest → addr.toNat / 4 = addr'.toNat / 4 →
    2 ^ 31 ≤ wordAddr addr → wordAddr addr < 2 ^ 31 + s.bufCap →
    ∃ t, run 2 s = .next t ∧ t.replies = v :: s.replies ∧ t.agenda = rest

/-! ### Padder and block decomposition -/

/-- 40_padder.md R115: uop.PAD. With MLEN legal it completes: marker, filler and trailer are in BUF, PLEN is N, and CHAIN
chooses between CHECK and completion; every other byte and every other element is unchanged. -/
def Obligations.PadMicroOperation : Prop :=
  ∀ (s : State) (len z : Nat), s.bufCap % 64 = 0 → s.bufCap ≤ 2 ^ 31 → s.mlen.toNat + 9 ≤ s.bufCap →
    len = s.mlen.toNat → z = (119 - len % 64) % 64 →
    ∃ t, exec .uopPad s = .next t ∧ len + 9 + z ≤ s.bufCap ∧ t.plen.toNat = len + 9 + z ∧
      t.buf.byteAt? len = some 0x80#8 ∧
      (∀ k, k < z → t.buf.byteAt? (len + 1 + k) = some 0x00#8) ∧
      (∀ k, k < 8 → t.buf.byteAt? (len + 1 + z + k) = some (BitVec.ofNat 8 (8 * len / 256 ^ (7 - k)))) ∧
      (∀ i, i < len ∨ len + 9 + z ≤ i → t.buf.byteAt? i = s.buf.byteAt? i) ∧
      (s.chain = true → t.chain = false ∧ t.phase = 2#4 ∧ t.done = s.done) ∧
      (s.chain = false → t.chain = false ∧ t.phase = 0#4 ∧ t.done = true) ∧
      { t with buf := s.buf, plen := s.plen, chain := s.chain, done := s.done, phase := s.phase } = s

/-- 40_padder.md R112: z is the value of the formula, the least count that aligns the length, with its two extremes. -/
def Obligations.FillerIsTheLeastAligningCount : Prop :=
  ∀ len : Nat, (fillerCount len : Int) = (55 - (len : Int) % 64) % 64 ∧ fillerCount len ≤ 63 ∧
    (len + 1 + fillerCount len + 8) % 64 = 0 ∧
    (∀ z, (len + 1 + z + 8) % 64 = 0 → fillerCount len ≤ z) ∧
    (len % 64 = 55 → fillerCount len = 0) ∧ (len % 64 = 56 → fillerCount len = 63)

/-- 40_padder.md R114 with R113: the length, prefix and marker of the padded message, its number of blocks, and its last 8
bytes read as a big-endian number (for a bit length below 2^64, which R116 gives every message here). -/
def Obligations.PaddedMessageLaws : Prop :=
  ∀ m : List Byte,
    (padMessage m).length = m.length + 9 + fillerCount m.length ∧
    (padMessage m).length = 64 * ((m.length + 9 + 63) / 64) ∧
    (padMessage m).length % 64 = 0 ∧ 64 ≤ (padMessage m).length ∧
    m.length + 9 ≤ (padMessage m).length ∧ (padMessage m).length ≤ m.length + 72 ∧
    (padMessage m).take m.length = m ∧ (padMessage m)[m.length]? = some 0x80#8 ∧
    (padMessage m).length / 64 = (m.length + 8) / 64 + 1 ∧
    (8 * m.length < 2 ^ 64 →
      ((padMessage m).drop ((padMessage m).length - 8)).foldl (fun n b => 256 * n + b.toNat) 0 = 8 * m.length)

/-- 40_padder.md R115, corner cases: padding twice with the same MLEN leaves the same BUF and PLEN as padding once. -/
def Obligations.PaddingTwiceIsPaddingOnce : Prop :=
  ∀ s t u : State, s.buf.wf → exec .uopPad s = .next t → exec .uopPad t = .next u →
    u.buf = t.buf ∧ u.plen = t.plen

/-- The model's choice for states no run reaches (log 7): a padded length beyond BUF_CAP is a fault, not a store outside BUF. -/
def Obligations.PaddingBeyondBufStops : Prop :=
  ∀ s : State, s.bufCap < s.mlen.toNat + 9 + fillerCount s.mlen.toNat → exec .uopPad s = .fault .outsideBuf

/-- 40_padder.md R118 with 60_exceptions.md R200, R203 and 43_accumulator.md R160: uop.CHECK in every state. -/
def Obligations.CheckMicroOperation : Prop :=
  ∀ s : State,
    (s.plen.toNat % 64 ≠ 0 → exec .uopCheck s = .next { s with err := true, errcode := 1#4, phase := 0#4 }) ∧
    (s.plen.toNat % 64 = 0 → ∃ t, exec .uopCheck s = .next t ∧ t.nblk.toNat = s.plen.toNat / 64 ∧ t.blkidx = 0#32 ∧
      t.h = ⟨0x67452301#32, 0xEFCDAB89#32, 0x98BADCFE#32, 0x10325476#32, 0xC3D2E1F0#32⟩ ∧
      (s.plen = 0#32 → t.done = true ∧ t.phase = 0#4) ∧
      (s.plen ≠ 0#32 → t.done = s.done ∧ t.phase = 3#4) ∧
      { t with nblk := s.nblk, blkidx := s.blkidx, h := s.h, done := s.done, phase := s.phase } = s)

/-! ### Schedule -/

/-- 41_schedule.md R130 to R132: uop.SCHED. With the block inside BUF it completes: W[0..15] are the block's big-endian words
(any value for a byte that is not specified, 20_memory.md R76), W[16..79] follow the recurrence, A..E are H and T is 0;
nothing else of the core changes. -/
def Obligations.SchedMicroOperation : Prop :=
  ∀ s : State, 64 * s.blkidx.toNat + 64 ≤ s.bufCap →
    ∃ (t : State) (b : Nat → Byte), exec .uopSched s = .next t ∧
      (∀ j x, j < 64 → s.buf.byteAt? (64 * s.blkidx.toNat + j) = some x → b j = x) ∧
      (∀ k, (hk : k < 16) → t.w[k].toNat =
        (b (4 * k)).toNat * 2 ^ 24 + (b (4 * k + 1)).toNat * 2 ^ 16 + (b (4 * k + 2)).toNat * 2 ^ 8 + (b (4 * k + 3)).toNat) ∧
      (∀ k, (hk : 16 ≤ k ∧ k < 80) →
        t.w[k] = (t.w[k - 3] ^^^ t.w[k - 8] ^^^ t.w[k - 14] ^^^ t.w[k - 16]).rotateLeft 1) ∧
      t.work = ⟨s.h.h0, s.h.h1, s.h.h2, s.h.h3, s.h.h4⟩ ∧ t.t = 0#7 ∧ t.phase = 4#4 ∧
      { t with w := s.w, work := s.work, t := s.t, phase := s.phase, draws := s.draws } = s

/-- The model's choice for states no run reaches (log 7): a block beyond BUF_CAP is a fault. -/
def Obligations.ScheduleBeyondBufStops : Prop :=
  ∀ s : State, s.bufCap < 64 * s.blkidx.toNat + 64 → exec .uopSched s = .fault .outsideBuf

/-- 41_schedule.md R133: a sixteen-word sliding window gives every W[t] with t >= 16 the same value as the 80 stored words. -/
def Obligations.SlidingWindowGivesTheSameWords : Prop :=
  ∀ (word : Nat → Word) (n : Nat), (hn : n < 64) →
    (schedule word)[16 + n] = nextScheduleWord (slideWindow (blockWords word) n)

/-! ### Rounds -/

/-- 42_rounds.md R140 with R142: the round function, bit by bit: a selection by B, a parity, a majority, a parity. -/
def Obligations.RoundFunctionByBits : Prop :=
  ∀ (t : Nat) (b c d : Word) (i : Nat), t < 80 → i < 32 →
    (t < 20 → (roundF t b c d).getLsbD i = if b.getLsbD i then c.getLsbD i else d.getLsbD i) ∧
    ((20 ≤ t ∧ t < 40) ∨ 60 ≤ t → (roundF t b c d).getLsbD i =
      decide (((b.getLsbD i).toNat + (c.getLsbD i).toNat + (d.getLsbD i).toNat) % 2 = 1)) ∧
    (40 ≤ t ∧ t < 60 → (roundF t b c d).getLsbD i =
      decide (2 ≤ (b.getLsbD i).toNat + (c.getLsbD i).toNat + (d.getLsbD i).toNat))

/-- 42_rounds.md R143 with R141 and R144: uop.ROUND. While T < 80 it completes: A is the sum modulo 2^32, B to E move on as
they stood, T is incremented, and ROUND or ACCUM comes next; nothing else changes. -/
def Obligations.RoundMicroOperation : Prop :=
  ∀ (s : State) (k : Nat), (ht : s.t.toNat < 80) →
    k = (if s.t.toNat < 20 then 0x5A827999 else if s.t.toNat < 40 then 0x6ED9EBA1
      else if s.t.toNat < 60 then 0x8F1BBCDC else 0xCA62C1D6) →
    ∃ u, exec .uopRound s = .next u ∧
      u.work.a.toNat = ((s.work.a.rotateLeft 5).toNat + (roundF s.t.toNat s.work.b s.work.c s.work.d).toNat +
        s.work.e.toNat + s.w[s.t.toNat].toNat + k) % 2 ^ 32 ∧
      u.work.b = s.work.a ∧ u.work.c.toNat = s.work.b.toNat * 2 ^ 30 % 2 ^ 32 + s.work.b.toNat / 4 ∧
      u.work.d = s.work.c ∧ u.work.e = s.work.d ∧
      u.t.toNat = s.t.toNat + 1 ∧ u.phase = (if s.t.toNat = 79 then 5#4 else 4#4) ∧
      { u with work := s.work, t := s.t, phase := s.phase } = s

/-- The model's choice for states no run reaches (log 8): a round index of 80 or more is a fault. -/
def Obligations.RoundIndexPastTheLastStops : Prop :=
  ∀ s : State, 80 ≤ s.t.toNat → exec .uopRound s = .fault .roundIndexOutOfRange

/-! ### Accumulator -/

/-- 43_accumulator.md R161: uop.ACCUM completes in every state: each H[i] is its sum modulo 2^32, BLKIDX is incremented
(00_scope.md R8: modulo 2^32), and the last block completes the command; nothing else changes. -/
def Obligations.AccumMicroOperation : Prop :=
  ∀ s : State, ∃ t, exec .uopAccum s = .next t ∧
    t.h.h0.toNat = (s.h.h0.toNat + s.work.a.toNat) % 2 ^ 32 ∧
    t.h.h1.toNat = (s.h.h1.toNat + s.work.b.toNat) % 2 ^ 32 ∧
    t.h.h2.toNat = (s.h.h2.toNat + s.work.c.toNat) % 2 ^ 32 ∧
    t.h.h3.toNat = (s.h.h3.toNat + s.work.d.toNat) % 2 ^ 32 ∧
    t.h.h4.toNat = (s.h.h4.toNat + s.work.e.toNat) % 2 ^ 32 ∧
    t.blkidx.toNat = (s.blkidx.toNat + 1) % 2 ^ 32 ∧
    (t.blkidx = s.nblk → t.done = true ∧ t.phase = 0#4) ∧
    (t.blkidx ≠ s.nblk → t.done = s.done ∧ t.phase = 3#4) ∧
    { t with h := s.h, blkidx := s.blkidx, done := s.done, phase := s.phase } = s

/-- 43_accumulator.md R164: the digest string is always 40 characters; character 8i + k is the lowercase hexadecimal digit k of
H[i], most significant first (48 is '0', 97 is 'a'); so no two digests share a string. -/
def Obligations.DigestStringIsFortyDigits : Prop :=
  ∀ h : Digest, (hexDigest h).length = 40 ∧
    (∀ c ∈ hexDigest h, (48 ≤ c.toNat ∧ c.toNat ≤ 57) ∨ (97 ≤ c.toNat ∧ c.toNat ≤ 102)) ∧
    (∀ i k w d, i < 5 → k < 8 → [h.h0, h.h1, h.h2, h.h3, h.h4][i]? = some w → d = w.toNat / 16 ^ (7 - k) % 16 →
      (hexDigest h)[8 * i + k]?.map Char.toNat = some (if d < 10 then 48 + d else 97 + (d - 10))) ∧
    (∀ h', hexDigest h' = hexDigest h → h' = h)

/-! ### Reset -/

/-- 70_reset_and_hazards.md R220 to R222: the state right after reset, at every capacity. -/
def Obligations.ResetValues : Prop :=
  ∀ c : Nat, let s := State.resetAt c; s.bufCap = c ∧ s.statusWord = 0#32 ∧ s.phase = 0#4 ∧ s.done = false ∧ s.err = false ∧
    s.errcode = 0#4 ∧ s.chain = false ∧ s.mlen = 0#32 ∧ s.plen = 0#32 ∧ s.nblk = 0#32 ∧ s.blkidx = 0#32 ∧ s.t = 0#7 ∧
    s.h = ⟨0x67452301#32, 0xEFCDAB89#32, 0x98BADCFE#32, 0x10325476#32, 0xC3D2E1F0#32⟩ ∧
    s.work = ⟨0#32, 0#32, 0#32, 0#32, 0#32⟩ ∧ (∀ k, (hk : k < 80) → s.w[k] = 0#32) ∧ (∀ i, s.buf.byteAt? i = none)

/-- 70_reset_and_hazards.md R220 to R222: reset between any two steps, whatever runs: the same values, no byte of BUF
specified, and the command abandoned; the capacity stays. What happens to the model's own fields is log 10. -/
def Obligations.ResetEventRestoresTheResetValues : Prop :=
  ∀ s : State, s.nextEvent = .reset → ∃ t, step s = .next t ∧
    t = { State.resetAt s.bufCap with draws := s.draws, agenda := s.agenda.tail, replies := s.replies } ∧
    t.statusWord = 0#32 ∧ (∀ i, t.buf.byteAt? i = none)

/-! ### Rules of the whole machine -/

/-- 10_state.md R40: the invariant holds right after reset, at every legal capacity. -/
def Obligations.ResetMeetsTheInvariant : Prop :=
  ∀ c : Nat, Config.legalCap c → (State.resetAt c).Inv

/-- 10_state.md R40: every step, of the host, the engine or reset, keeps the invariant. -/
def Obligations.EveryStepKeepsTheInvariant : Prop :=
  ∀ s t : State, s.Inv → step s = .next t → t.Inv

/-- 60_exceptions.md R205: from a state that meets the invariant no event stops the machine, whatever the host does. -/
def Obligations.NoStepStopsFromAGoodState : Prop :=
  ∀ s : State, s.Inv → Safe (step s)

/-- The model's BUF keeps its canonical form in every step from every state, reachable or not. -/
def Obligations.EveryStepKeepsBufCanonical : Prop :=
  ∀ s t : State, s.buf.wf → step s = .next t → t.buf.wf

/-- 10_state.md R20, the column 'written by': apart from reset, each element changes only in the listed steps. ID and CMD have no
storage, and STATUS is PHASE, CHAIN, DONE, ERR and ERRCODE. -/
def Obligations.ElementsAreWrittenOnlyAsListed : Prop :=
  ∀ s t : State, step s = .next t → s.nextEvent ≠ .reset →
    t.bufCap = s.bufCap ∧
    (t.mlen ≠ s.mlen → s.phase = 0#4 ∧ ∃ addr v, s.nextEvent = .bus (.write addr v) ∧ wordAddr addr = 0x00C ∧ t.mlen = v) ∧
    (t.plen ≠ s.plen → (s.phase = 0#4 ∧ ∃ addr v, s.nextEvent = .bus (.write addr v) ∧ wordAddr addr = 0x010 ∧ t.plen = v) ∨
      (s.nextEvent = .engine ∧ s.phase = 1#4)) ∧
    (t.nblk ≠ s.nblk → s.nextEvent = .engine ∧ s.phase = 2#4) ∧
    (t.blkidx ≠ s.blkidx → s.nextEvent = .engine ∧ (s.phase = 2#4 ∨ s.phase = 5#4)) ∧
    (t.t ≠ s.t → s.nextEvent = .engine ∧ (s.phase = 3#4 ∨ s.phase = 4#4)) ∧
    (t.h ≠ s.h → s.nextEvent = .engine ∧ (s.phase = 2#4 ∨ s.phase = 5#4)) ∧
    (t.work ≠ s.work → s.nextEvent = .engine ∧ (s.phase = 3#4 ∨ s.phase = 4#4)) ∧
    (t.w ≠ s.w → s.nextEvent = .engine ∧ s.phase = 3#4) ∧
    (t.buf ≠ s.buf → (s.phase = 0#4 ∧ ∃ addr v, s.nextEvent = .bus (.write addr v) ∧ 2 ^ 31 ≤ wordAddr addr ∧
      wordAddr addr < 2 ^ 31 + s.bufCap) ∨ (s.nextEvent = .engine ∧ s.phase = 1#4)) ∧
    (t.phase ≠ s.phase → s.AcceptsCommand ∨ (s.nextEvent = .engine ∧ s.phase ≠ 0#4)) ∧
    (t.chain ≠ s.chain → s.AcceptsCommand ∨ (s.nextEvent = .engine ∧ s.phase = 1#4 ∧ t.chain = false)) ∧
    (t.done ≠ s.done → (s.AcceptsCommand ∧ t.done = false) ∨
      (s.nextEvent = .engine ∧ (s.phase = 1#4 ∨ s.phase = 2#4 ∨ s.phase = 5#4) ∧ t.done = true)) ∧
    (t.err ≠ s.err ∨ t.errcode ≠ s.errcode → s.AcceptsCommand ∨ (s.nextEvent = .engine ∧ s.phase = 2#4))

/-- 10_state.md R26: ERR and ERRCODE become set only by a CHECK that finds PLEN not a multiple of 64, and then to 1 and 1;
an accepted PAD, COMPUTE or HASH and reset clear them; no other step changes them. -/
def Obligations.ErrorIsSetOnlyByCheck : Prop :=
  ∀ s t : State, step s = .next t →
    (t.err ≠ s.err ∨ t.errcode ≠ s.errcode →
      (s.nextEvent = .engine ∧ s.phase = 2#4 ∧ s.plen.toNat % 64 ≠ 0 ∧ t.err = true ∧ t.errcode = 1#4) ∨
      (t.err = false ∧ t.errcode = 0#4 ∧ (s.nextEvent = .reset ∨
        (s.phase = 0#4 ∧ ∃ addr v, s.nextEvent = .bus (.write addr v) ∧ wordAddr addr = 0x004 ∧
          1 ≤ v.toNat ∧ v.toNat ≤ 3)))) ∧
    (∀ addr v, s.phase = 0#4 → s.nextEvent = .bus (.write addr v) → wordAddr addr = 0x004 → 1 ≤ v.toNat → v.toNat ≤ 3 →
      t.err = false ∧ t.errcode = 0#4) ∧
    (s.nextEvent = .engine → s.phase = 2#4 → s.plen.toNat % 64 ≠ 0 → t.err = true ∧ t.errcode = 1#4) ∧
    (s.nextEvent = .reset → t.err = false ∧ t.errcode = 0#4)

/-- 10_state.md R25: DONE becomes 1 only at the end of a PAD without CHAIN, of a CHECK that finds no block, or of the ACCUM
of the last block; and then the core is idle. -/
def Obligations.DoneIsSetOnlyAtCompletion : Prop :=
  ∀ s t : State, step s = .next t → s.done = false → t.done = true →
    s.nextEvent = .engine ∧ t.phase = 0#4 ∧
      ((s.phase = 1#4 ∧ s.chain = false) ∨ (s.phase = 2#4 ∧ s.plen = 0#32) ∨ (s.phase = 5#4 ∧ s.blkidx + 1 = s.nblk))

/-- 44_commands.md R181: the order of the micro-operations of a command, with the index that counts each. -/
def Obligations.MicroOperationsRunInOrder : Prop :=
  ∀ s t : State, s.Inv → s.nextEvent = .engine → step s = .next t →
    (s.phase = 0#4 → t.phase = 0#4) ∧
    (s.phase = 1#4 → t.phase = if s.chain then 2#4 else 0#4) ∧
    (s.phase = 2#4 → t.phase = if s.plen.toNat % 64 = 0 ∧ s.plen.toNat ≠ 0 then 3#4 else 0#4) ∧
    (s.phase = 3#4 → t.phase = 4#4 ∧ t.t = 0#7 ∧ t.blkidx = s.blkidx) ∧
    (s.phase = 4#4 → t.t.toNat = s.t.toNat + 1 ∧ t.blkidx = s.blkidx ∧ t.phase = if s.t.toNat = 79 then 5#4 else 4#4) ∧
    (s.phase = 5#4 → t.t.toNat = 80 ∧ t.blkidx.toNat = s.blkidx.toNat + 1 ∧
      t.phase = if s.blkidx.toNat + 1 = s.plen.toNat / 64 then 0#4 else 3#4)

/-! ### Whole commands -/

/-- 44_commands.md R183 with R187 and R188: a PAD command takes one engine step; PLEN is N, DONE is 1, and H, NBLK, BLKIDX, T
and A..E are unchanged. -/
def Obligations.PadCommandPadsTheMessage : Prop :=
  ∀ s : State, s.Inv → s.AboutToRun 1 → ∃ t, run (1 + 1) s = .next t ∧
    t.phase = 0#4 ∧ t.done = true ∧ t.err = false ∧ t.errcode = 0#4 ∧ t.chain = false ∧
    t.plen.toNat = paddedLength s.mlen.toNat ∧ t.mlen = s.mlen ∧
    (t.nblk = s.nblk ∧ t.blkidx = s.blkidx ∧ t.t = s.t ∧ t.h = s.h ∧ t.work = s.work) ∧
    (∀ i, i < s.mlen.toNat ∨ paddedLength s.mlen.toNat ≤ i → t.buf.byteAt? i = s.buf.byteAt? i) ∧
    (∀ k, k < paddedLength s.mlen.toNat - s.mlen.toNat →
      t.buf.byteAt? (s.mlen.toNat + k) = (padTail s.mlen.toNat)[k]?)

/-- 44_commands.md R184 with R187 and R188, 60_exceptions.md R203: a COMPUTE with a PLEN that is not a multiple of 64 takes one
engine step and changes only the status: no partial result. -/
def Obligations.MisalignedComputeReportsAndChangesNothing : Prop :=
  ∀ s : State, s.AboutToRun 2 → s.plen.toNat % 64 ≠ 0 →
    run (1 + 1) s = .next
      { s with done := false, err := true, errcode := 1#4, chain := false, phase := 0#4, agenda := [] }

/-- 44_commands.md R184 with R187 and R188: a COMPUTE of k blocks takes 1 + 82k engine steps and leaves the compression of the
k blocks of BUF from IV in H, for k = 0 the IV, and the last block's final round values in A..E; BUF, PLEN and MLEN are
unchanged. -/
def Obligations.ComputeCompressesTheBlocks : Prop :=
  ∀ (s : State) (b : Nat → Byte) (k : Nat), s.Inv → s.AboutToRun 2 → s.plen.toNat = 64 * k →
    (∀ i, i < 64 * k → s.buf.byteAt? i = some (b i)) →
    ∃ t, run (1 + (1 + 82 * k)) s = .next t ∧
      t.phase = 0#4 ∧ t.done = true ∧ t.err = false ∧ t.errcode = 0#4 ∧ t.chain = false ∧
      t.h = compressBlocks b k ∧ t.nblk.toNat = k ∧ t.blkidx.toNat = k ∧
      (k = 0 → t.t = s.t ∧ t.work = s.work) ∧
      (k ≠ 0 → t.t = 80#7 ∧
        t.work = runRounds 0 (schedule (blockWord b (k - 1))).toList (Working.ofDigest (compressBlocks b (k - 1)))) ∧
      t.buf = s.buf ∧ t.plen = s.plen ∧ t.mlen = s.mlen

/-- 43_accumulator.md R165, 44_commands.md R185 with R187 and R188: a HASH over a message that the host has written takes
2 + 82 N/64 engine steps and leaves SHA1(m) in H, with no error, the padding in BUF[L..N) and the last block's final round values
in A..E. -/
def Obligations.HashComputesSha1 : Prop :=
  ∀ (s : State) (m : List Byte), s.Inv → s.AboutToRun 3 → s.mlen.toNat = m.length → s.Holds m →
    ∃ t, run (1 + (2 + 82 * (paddedLength m.length / 64))) s = .next t ∧
      t.h = sha1 m ∧ t.phase = 0#4 ∧ t.done = true ∧ t.err = false ∧ t.errcode = 0#4 ∧ t.chain = false ∧
      t.plen.toNat = paddedLength m.length ∧ t.nblk.toNat = paddedLength m.length / 64 ∧ t.blkidx = t.nblk ∧ t.t = 80#7 ∧
      t.mlen = s.mlen ∧
      (let b := fun i => (padMessage m).getD i 0
       let last := paddedLength m.length / 64 - 1
       t.work = runRounds 0 (schedule (blockWord b last)).toList (Working.ofDigest (compressBlocks b last))) ∧
      (∀ i, i < paddedLength m.length → t.buf.byteAt? i = (padMessage m)[i]?) ∧
      (∀ i, i < m.length ∨ paddedLength m.length ≤ i → t.buf.byteAt? i = s.buf.byteAt? i)

/-- 43_accumulator.md R166: the digest is a function of the message bytes alone: two cores that hold the same message, whatever
else differs between them (their flags, digests, working registers, schedules, capacities), end a HASH with the same H. -/
def Obligations.DigestDependsOnTheMessageAlone : Prop :=
  ∀ (s s' : State) (m : List Byte), s.Inv → s'.Inv → s.AboutToRun 3 → s'.AboutToRun 3 →
    s.mlen.toNat = m.length → s'.mlen.toNat = m.length → s.Holds m → s'.Holds m →
    ∃ t t', run (1 + (2 + 82 * (paddedLength m.length / 64))) s = .next t ∧
      run (1 + (2 + 82 * (paddedLength m.length / 64))) s' = .next t' ∧
      t.done = true ∧ t'.done = true ∧ t.h = t'.h

/-- 44_commands.md R188: the engine steps of each command, NOP and the reserved words among them: after that many the core
is idle, and after fewer it is not. -/
def Obligations.EngineStepCounts : Prop :=
  ∀ (s : State) (v : Word) (n : Nat), s.Inv → s.AboutToRun v →
    n = (if v.toNat = 1 then 1
      else if v.toNat = 2 then if s.plen.toNat % 64 = 0 then 1 + 82 * (s.plen.toNat / 64) else 1
      else if v.toNat = 3 then 2 + 82 * (paddedLength s.mlen.toNat / 64)
      else 0) →
    (∀ k, k < n → ∃ u, run (1 + k) s = .next u ∧ u.phase ≠ 0#4) ∧ ∃ t, run (1 + n) s = .next t ∧ t.phase = 0#4

/-- 70_reset_and_hazards.md R238, 20_memory.md R64, R70 and R73: a HASH ends with SHA1(m) in H whatever the host does
meanwhile. `rest` (the model's agenda, log 1) is any interleaving of the command's engine steps with host reads and writes, at any address and in any
order; its last event is the last engine step. -/
def Obligations.DigestUnderEveryInterleaving : Prop :=
  ∀ (s : State) (m : List Byte) (rest : List Event), s.Inv → s.phase = 0#4 → s.mlen.toNat = m.length → s.Holds m →
    s.agenda = .bus (.write (Reg.offset .cmd) 3#32) :: rest → .reset ∉ rest →
    rest.count .engine = 2 + 82 * (paddedLength m.length / 64) → rest.getLast? = some .engine →
    ∃ t, run (1 + rest.length) s = .next t ∧ t.agenda = [] ∧ t.h = sha1 m ∧
      t.phase = 0#4 ∧ t.done = true ∧ t.err = false ∧ t.errcode = 0#4 ∧ t.mlen = s.mlen ∧
      t.plen.toNat = paddedLength m.length

/-! ### The host's side -/

/-- 30_encoding.md R99, 70_reset_and_hazards.md R224: LOADMSG on an idle core leaves the message in BUF and its length in MLEN. -/
def Obligations.LoadMsgStoresTheMessage : Prop :=
  ∀ (s : State) (m : List Byte), s.Inv → s.phase = 0#4 → m.length + 9 ≤ s.bufCap → s.agenda = busEvents (loadMsg m) →
    ∃ t, run ((m.length + 3) / 4 + 1) s = .next t ∧ t.agenda = [] ∧
      t.mlen.toNat = m.length ∧ t.Holds m ∧ t.phase = 0#4 ∧ t.plen = s.plen ∧ t.h = s.h ∧ t.done = s.done ∧ t.err = s.err ∧
      (∀ i, (m.length + 3) / 4 * 4 ≤ i → t.buf.byteAt? i = s.buf.byteAt? i)

/-- 30_encoding.md R99: POLL goes back to its label while STATUS.BUSY is 1 and passes on with BUSY 0 bound; the core is
unchanged but for the value returned. The label is fresh: its first line is this one. -/
def Obligations.PollLoopsExactlyWhileBusy : Prop :=
  ∀ (r : HostRun) (fresh n : Nat), r.core.errcode.toNat ≤ 1 → r.core.agenda = [] → r.aborted = false →
    (∀ k, k < 3 → r.program[r.line + k]? = (pollLines fresh n)[k]?) → r.target? fresh = some r.line →
    ∃ r₁ r₂ r₃ v, r.hostTurn = .next r₁ ∧ r₁.hostTurn = .next r₂ ∧ r₂.hostTurn = .next r₃ ∧
      r₃.aborted = false ∧ r₃.value? n = some v ∧ r₃.trace = ⟨.R, 0x008#32, v⟩ :: r.trace ∧
      v.getLsbD 0 = decide (r.core.phase ≠ 0#4) ∧
      r₃.line = (if r.core.phase ≠ 0#4 then r.line else r.line + 3) ∧
      r₃.core = { r.core with replies := v :: r.core.replies }
end

