-- ==== Sys2Proof/Laws/Bits.lean ====
section
/-!
SUPPORT. Words as numbers: byte order, rotation, aligned addresses, the register map.
-/
namespace Sys2Proof.Machine

/-- BE32 as a number (00_scope.md R10). -/
theorem be32_toNat (b0 b1 b2 b3 : Byte) :
    (be32 b0 b1 b2 b3).toNat = b0.toNat * 2 ^ 24 + b1.toNat * 2 ^ 16 + b2.toNat * 2 ^ 8 + b3.toNat := by
  have join (x : Nat) (b : Byte) : x <<< 8 ||| b.toNat = x * 2 ^ 8 + b.toNat := by
    rw [← Nat.shiftLeft_add_eq_or_of_lt b.isLt, Nat.shiftLeft_eq]
  unfold be32
  rw [BitVec.toNat_append, BitVec.toNat_append, BitVec.toNat_append, join, join, join]
  omega

@[simp] theorem be32Bytes_length (v : Word) : (be32Bytes v).length = 4 := rfl

@[simp] theorem be64Bytes_length (v : BitVec 64) : (be64Bytes v).length = 8 := rfl

/-- Byte k of a word, most significant first, as a number (00_scope.md R11). -/
theorem be32Bytes_getElem (v : Word) (k : Nat) (hk : k < 4) :
    (be32Bytes v)[k]'(by simpa using hk) = BitVec.ofNat 8 (v.toNat / 256 ^ (3 - k)) := by
  apply BitVec.eq_of_toNat_eq
  match k, hk with
  | 0, _ => simp [be32Bytes, Nat.shiftRight_eq_div_pow]
  | 1, _ => simp [be32Bytes, Nat.shiftRight_eq_div_pow]
  | 2, _ => simp [be32Bytes, Nat.shiftRight_eq_div_pow]
  | 3, _ => simp [be32Bytes]

/-- Byte k of a 64-bit value, most significant first, as a number (00_scope.md R11). -/
theorem be64Bytes_getElem (v : BitVec 64) (k : Nat) (hk : k < 8) :
    (be64Bytes v)[k]'(by simpa using hk) = BitVec.ofNat 8 (v.toNat / 256 ^ (7 - k)) := by
  apply BitVec.eq_of_toNat_eq
  match k, hk with
  | 0, _ | 1, _ | 2, _ | 3, _ | 4, _ | 5, _ | 6, _ => simp [be64Bytes, Nat.shiftRight_eq_div_pow]
  | 7, _ => simp [be64Bytes]

/-- A word is the BE32 of its bytes (20_memory.md R66). -/
theorem be32_be32Bytes (v : Word) :
    be32 (v.extractLsb' 24 8) (v.extractLsb' 16 8) (v.extractLsb' 8 8) (v.extractLsb' 0 8) = v := by
  apply BitVec.eq_of_toNat_eq
  have := v.isLt
  rw [be32_toNat]
  simp [Nat.shiftRight_eq_div_pow]
  omega

/-- The bytes of a word made of four bytes are those four. -/
theorem be32Bytes_be32 (b0 b1 b2 b3 : Byte) : be32Bytes (be32 b0 b1 b2 b3) = [b0, b1, b2, b3] := by
  have l0 := b0.isLt; have l1 := b1.isLt; have l2 := b2.isLt; have l3 := b3.isLt
  have e := be32_toNat b0 b1 b2 b3
  generalize be32 b0 b1 b2 b3 = v at e
  have byte (k : Nat) (b : Byte) (h : v.toNat / 2 ^ k % 2 ^ 8 = b.toNat) : v.extractLsb' k 8 = b :=
    BitVec.eq_of_toNat_eq (by rw [BitVec.extractLsb'_toNat, Nat.shiftRight_eq_div_pow, h])
  rw [be32Bytes, byte 24 b0, byte 16 b1, byte 8 b2, byte 0 b3] <;> omega

/-- The rotation of 00_scope.md R9 is the rotation of bit vectors. -/
theorem rotl32_eq_rotateLeft (x : Word) (n : Nat) (hn : n < 32) : rotl32 x n = x.rotateLeft n := by
  rw [BitVec.rotateLeft_def, Nat.mod_eq_of_lt hn]; rfl

/-- An aligned address as a number (20_memory.md R65). -/
@[simp] theorem alignWord_toNat (addr : Word) : (alignWord addr).toNat = addr.toNat / 4 * 4 := by
  have := addr.isLt
  unfold alignWord
  rw [BitVec.toNat_append, show (0#2).toNat = 0 from rfl, Nat.or_zero, Nat.shiftLeft_eq, BitVec.extractLsb'_toNat,
    Nat.shiftRight_eq_div_pow]
  omega

/-- Two addresses of one word align to the same address. -/
theorem alignWord_congr {addr addr' : Word} (h : addr.toNat / 4 = addr'.toNat / 4) : alignWord addr = alignWord addr' :=
  BitVec.eq_of_toNat_eq (by rw [alignWord_toNat, alignWord_toNat, h])

/-- An aligned address is a given word when the number says so. -/
theorem alignWord_eq_iff (addr a : Word) : alignWord addr = a ↔ addr.toNat / 4 * 4 = a.toNat := by
  rw [← alignWord_toNat]; exact ⟨fun h => h ▸ rfl, BitVec.eq_of_toNat_eq⟩

/-- When an address reaches BUF (20_memory.md R61). -/
@[simp] theorem State.inBuf_iff (s : State) (a : Word) :
    s.inBuf a = true ↔ 2 ^ 31 ≤ a.toNat ∧ a.toNat < 2 ^ 31 + s.bufCap := by
  rw [State.inBuf, Bool.and_eq_true, decide_eq_true_iff, decide_eq_true_iff]; rfl

/-- The register map finds a register exactly at its own offset. -/
theorem Reg.ofAddr_offset (r : Reg) : Reg.ofAddr r.offset = some r := by cases r <;> decide

/-- The register map finds nothing beyond the last register. -/
theorem Reg.ofAddr_eq_some {a : Word} {r : Reg} (h : Reg.ofAddr a = some r) : a = r.offset := by
  have := List.find?_some h
  exact (beq_iff_eq.1 this).symm

end Sys2Proof.Machine
end

