-- ==== Sys2Proof/Laws/Memory.lean ====
section
/-!
SUPPORT. BUF: reading after writing, what a write leaves alone, and that every write keeps the canonical form.
-/
namespace Sys2Proof.Machine.Memory

@[simp] theorem byteAt?_nil (i : Nat) : byteAt? [] i = none := rfl

theorem byteAt?_cons (j : Nat) (b : Byte) (m : Memory) (i : Nat) :
    byteAt? ((j, b) :: m) i = if j = i then some b else byteAt? m i := rfl

/-- A read after a write: the written byte at its index, and what was there before everywhere else. -/
@[simp] theorem byteAt?_setByte (m : Memory) (i : Nat) (b : Byte) (k : Nat) :
    (m.setByte i b).byteAt? k = if k = i then some b else m.byteAt? k := by
  induction m with
  | nil => simp [setByte, byteAt?_cons, eq_comm]
  | cons c m ih =>
    obtain ⟨j, x⟩ := c
    unfold setByte
    split
    · simp [byteAt?_cons, eq_comm]
    · split
      · subst_vars
        simp only [byteAt?_cons, @eq_comm _ _ k]
        split <;> rfl
      · rw [byteAt?_cons, ih, byteAt?_cons]
        split <;> split <;> first | rfl | omega

/-- A read after a block write: the stored byte inside the block, and what was there before outside it. -/
theorem byteAt?_setBytes (m : Memory) (i : Nat) (bs : List Byte) (k : Nat) :
    (m.setBytes i bs).byteAt? k = if i ≤ k ∧ k < i + bs.length then bs[k - i]? else m.byteAt? k := by
  induction bs generalizing m i with
  | nil => simp [setBytes]
  | cons b bs ih =>
    rw [setBytes, ih, byteAt?_setByte]
    rcases Nat.lt_trichotomy k i with h | h | h
    · rw [if_neg (by omega), if_neg (by omega), if_neg (by omega)]
    · subst h; simp
    · obtain ⟨d, rfl⟩ : ∃ d, k = i + 1 + d := ⟨k - i - 1, by omega⟩
      have : i + 1 + d - i = d + 1 := by omega
      simp only [this, List.getElem?_cons_succ, List.length_cons]
      by_cases hd : d < bs.length
      · rw [if_pos (by omega), if_pos (by omega)]; congr 1; omega
      · rw [if_neg (by omega), if_neg (by omega), if_neg (by omega)]

/-- The k-th byte of a block that was just written. -/
theorem byteAt?_setBytes_inside (m : Memory) (i : Nat) (bs : List Byte) (k : Nat) (hk : k < bs.length) :
    (m.setBytes i bs).byteAt? (i + k) = some bs[k] := by
  rw [byteAt?_setBytes, if_pos (by omega), Nat.add_sub_cancel_left, List.getElem?_eq_getElem hk]

/-- A block write leaves every byte outside the block alone. -/
theorem byteAt?_setBytes_outside (m : Memory) (i : Nat) (bs : List Byte) (k : Nat)
    (hk : k < i ∨ i + bs.length ≤ k) : (m.setBytes i bs).byteAt? k = m.byteAt? k := by
  rw [byteAt?_setBytes, if_neg (by omega)]

/-- The cells after a write are the written cell and cells that were there. -/
theorem mem_setByte {m : Memory} {i : Nat} {b : Byte} {c : Host.Cell} (h : c ∈ m.setByte i b) :
    c = (i, b) ∨ c ∈ m := by
  induction m with
  | nil => simpa [setByte] using h
  | cons d m ih =>
    obtain ⟨j, x⟩ := d
    unfold setByte at h
    split at h
    · simpa using h
    · split at h
      · rcases List.mem_cons.1 h with h | h
        · exact .inl h
        · exact .inr (.tail _ h)
      · rcases List.mem_cons.1 h with h | h
        · exact .inr (h ▸ .head _)
        · exact (ih h).imp id (.tail _)

/-- A byte write keeps the canonical form. -/
theorem setByte_wf {m : Memory} (h : m.wf) (i : Nat) (b : Byte) : (m.setByte i b).wf := by
  induction m with
  | nil => simp [setByte]
  | cons d m ih =>
    obtain ⟨j, x⟩ := d
    obtain ⟨hj, hm⟩ := List.pairwise_cons.1 h
    unfold setByte
    split
    · refine List.pairwise_cons.2 ⟨fun c hc => ?_, h⟩
      rcases List.mem_cons.1 hc with rfl | hc
      · assumption
      · exact Nat.lt_trans ‹i < j› (hj c hc)
    · split
      · subst_vars; exact List.pairwise_cons.2 ⟨hj, hm⟩
      · refine List.pairwise_cons.2 ⟨fun c hc => ?_, ih hm⟩
        rcases mem_setByte hc with rfl | hc
        · show j < i; omega
        · exact hj c hc

/-- A block write keeps the canonical form. -/
theorem setBytes_wf {m : Memory} (h : m.wf) (i : Nat) (bs : List Byte) : (m.setBytes i bs).wf := by
  induction bs generalizing m i with
  | nil => exact h
  | cons b bs ih => exact ih (setByte_wf h i b) (i + 1)

/-- A byte write inside the capacity keeps every index inside it. -/
theorem setByte_within {m : Memory} {cap : Nat} (h : m.within cap) {i : Nat} (hi : i < cap) (b : Byte) :
    (m.setByte i b).within cap := by
  intro c hc
  rcases mem_setByte hc with rfl | hc
  · exact hi
  · exact h c hc

/-- A block write inside the capacity keeps every index inside it. -/
theorem setBytes_within {m : Memory} {cap : Nat} (h : m.within cap) {i : Nat} {bs : List Byte}
    (hi : i + bs.length ≤ cap) : (m.setBytes i bs).within cap := by
  induction bs generalizing m i with
  | nil => exact h
  | cons b bs ih =>
    simp only [List.length_cons] at hi
    exact ih (setByte_within h (by omega) b) (by omega)

/-- A listed index is one whose byte is specified. -/
theorem byteAt?_eq_none_of_lt {m : Memory} {i : Nat} (h : ∀ c ∈ m, i < c.1) : m.byteAt? i = none := by
  induction m with
  | nil => rfl
  | cons c m ih =>
    obtain ⟨j, x⟩ := c
    have hj : i < j := h (j, x) (.head _)
    rw [byteAt?_cons, if_neg (by omega), ih fun c hc => h c (.tail _ hc)]

/-- Canonical memories that read the same are equal: equal memories are equal data. -/
theorem ext_of_byteAt? {m m' : Memory} (h : m.wf) (h' : m'.wf) (e : ∀ i, m.byteAt? i = m'.byteAt? i) : m = m' := by
  induction m generalizing m' with
  | nil =>
    cases m' with
    | nil => rfl
    | cons c m' => obtain ⟨k, y⟩ := c; simpa [byteAt?_cons] using e k
  | cons c m ih =>
    obtain ⟨j, x⟩ := c
    obtain ⟨hj, hm⟩ := List.pairwise_cons.1 h
    cases m' with
    | nil => simpa [byteAt?_cons] using e j
    | cons d m' =>
      obtain ⟨k, y⟩ := d
      obtain ⟨hk, hm'⟩ := List.pairwise_cons.1 h'
      have none_below {n : Memory} {a i : Nat} (hn : ∀ c ∈ n, a < c.1) (hi : i ≤ a) : n.byteAt? i = none :=
        byteAt?_eq_none_of_lt fun c hc => Nat.lt_of_le_of_lt hi (hn c hc)
      have hjk : j = k := by
        rcases Nat.lt_trichotomy j k with hlt | heq | hlt
        · have := e j
          rw [byteAt?_cons, if_pos rfl, byteAt?_cons, if_neg (by omega), none_below hk (by omega)] at this
          cases this
        · exact heq
        · have := e k
          rw [byteAt?_cons, if_neg (by omega), none_below hj (by omega), byteAt?_cons, if_pos rfl] at this
          cases this
      subst hjk
      have hxy : x = y := by simpa [byteAt?_cons] using e j
      subst hxy
      congr 1
      refine ih hm hm' fun i => ?_
      by_cases hi : j = i
      · subst hi; rw [none_below hj (Nat.le_refl _), none_below hk (Nat.le_refl _)]
      · simpa [byteAt?_cons, hi] using e i

end Sys2Proof.Machine.Memory
end

