-- ==== Sys2Proof/Laws/State.lean ====
section
/-!
SUPPORT. The fields of each named update of the state: one lemma per field per update, so that no proof unfolds a record update.
-/
namespace Sys2Proof.Machine

/-! ### `State.drawn` -/

@[simp] theorem State.drawn_bufCap (s : State) : (s.drawn).bufCap = s.bufCap := rfl
@[simp] theorem State.drawn_mlen (s : State) : (s.drawn).mlen = s.mlen := rfl
@[simp] theorem State.drawn_plen (s : State) : (s.drawn).plen = s.plen := rfl
@[simp] theorem State.drawn_nblk (s : State) : (s.drawn).nblk = s.nblk := rfl
@[simp] theorem State.drawn_blkidx (s : State) : (s.drawn).blkidx = s.blkidx := rfl
@[simp] theorem State.drawn_t (s : State) : (s.drawn).t = s.t := rfl
@[simp] theorem State.drawn_h (s : State) : (s.drawn).h = s.h := rfl
@[simp] theorem State.drawn_work (s : State) : (s.drawn).work = s.work := rfl
@[simp] theorem State.drawn_w (s : State) : (s.drawn).w = s.w := rfl
@[simp] theorem State.drawn_phase (s : State) : (s.drawn).phase = s.phase := rfl
@[simp] theorem State.drawn_chain (s : State) : (s.drawn).chain = s.chain := rfl
@[simp] theorem State.drawn_done (s : State) : (s.drawn).done = s.done := rfl
@[simp] theorem State.drawn_err (s : State) : (s.drawn).err = s.err := rfl
@[simp] theorem State.drawn_errcode (s : State) : (s.drawn).errcode = s.errcode := rfl
@[simp] theorem State.drawn_buf (s : State) : (s.drawn).buf = s.buf := rfl
@[simp] theorem State.drawn_draws (s : State) : (s.drawn).draws = s.draws + 1 := rfl
@[simp] theorem State.drawn_agenda (s : State) : (s.drawn).agenda = s.agenda := rfl
@[simp] theorem State.drawn_replies (s : State) : (s.drawn).replies = s.replies := rfl

/-! ### `State.storeBytes` -/

@[simp] theorem State.storeBytes_bufCap (s : State) (i : Nat) (bs : List Byte) : (s.storeBytes i bs).bufCap = s.bufCap :=
  rfl
@[simp] theorem State.storeBytes_mlen (s : State) (i : Nat) (bs : List Byte) : (s.storeBytes i bs).mlen = s.mlen := rfl
@[simp] theorem State.storeBytes_plen (s : State) (i : Nat) (bs : List Byte) : (s.storeBytes i bs).plen = s.plen := rfl
@[simp] theorem State.storeBytes_nblk (s : State) (i : Nat) (bs : List Byte) : (s.storeBytes i bs).nblk = s.nblk := rfl
@[simp] theorem State.storeBytes_blkidx (s : State) (i : Nat) (bs : List Byte) : (s.storeBytes i bs).blkidx = s.blkidx :=
  rfl
@[simp] theorem State.storeBytes_t (s : State) (i : Nat) (bs : List Byte) : (s.storeBytes i bs).t = s.t := rfl
@[simp] theorem State.storeBytes_h (s : State) (i : Nat) (bs : List Byte) : (s.storeBytes i bs).h = s.h := rfl
@[simp] theorem State.storeBytes_work (s : State) (i : Nat) (bs : List Byte) : (s.storeBytes i bs).work = s.work := rfl
@[simp] theorem State.storeBytes_w (s : State) (i : Nat) (bs : List Byte) : (s.storeBytes i bs).w = s.w := rfl
@[simp] theorem State.storeBytes_phase (s : State) (i : Nat) (bs : List Byte) : (s.storeBytes i bs).phase = s.phase :=
  rfl
@[simp] theorem State.storeBytes_chain (s : State) (i : Nat) (bs : List Byte) : (s.storeBytes i bs).chain = s.chain :=
  rfl
@[simp] theorem State.storeBytes_done (s : State) (i : Nat) (bs : List Byte) : (s.storeBytes i bs).done = s.done := rfl
@[simp] theorem State.storeBytes_err (s : State) (i : Nat) (bs : List Byte) : (s.storeBytes i bs).err = s.err := rfl
@[simp] theorem State.storeBytes_errcode (s : State) (i : Nat) (bs : List Byte) : (s.storeBytes i bs).errcode = s.errcode :=
  rfl
@[simp] theorem State.storeBytes_buf (s : State) (i : Nat) (bs : List Byte) : (s.storeBytes i bs).buf = s.buf.setBytes i bs :=
  rfl
@[simp] theorem State.storeBytes_draws (s : State) (i : Nat) (bs : List Byte) : (s.storeBytes i bs).draws = s.draws :=
  rfl
@[simp] theorem State.storeBytes_agenda (s : State) (i : Nat) (bs : List Byte) : (s.storeBytes i bs).agenda = s.agenda :=
  rfl
@[simp] theorem State.storeBytes_replies (s : State) (i : Nat) (bs : List Byte) : (s.storeBytes i bs).replies = s.replies :=
  rfl

/-! ### `State.accept` -/

@[simp] theorem State.accept_bufCap (s : State) (ch : Bool) (p : BitVec 4) : (s.accept ch p).bufCap = s.bufCap := rfl
@[simp] theorem State.accept_mlen (s : State) (ch : Bool) (p : BitVec 4) : (s.accept ch p).mlen = s.mlen := rfl
@[simp] theorem State.accept_plen (s : State) (ch : Bool) (p : BitVec 4) : (s.accept ch p).plen = s.plen := rfl
@[simp] theorem State.accept_nblk (s : State) (ch : Bool) (p : BitVec 4) : (s.accept ch p).nblk = s.nblk := rfl
@[simp] theorem State.accept_blkidx (s : State) (ch : Bool) (p : BitVec 4) : (s.accept ch p).blkidx = s.blkidx := rfl
@[simp] theorem State.accept_t (s : State) (ch : Bool) (p : BitVec 4) : (s.accept ch p).t = s.t := rfl
@[simp] theorem State.accept_h (s : State) (ch : Bool) (p : BitVec 4) : (s.accept ch p).h = s.h := rfl
@[simp] theorem State.accept_work (s : State) (ch : Bool) (p : BitVec 4) : (s.accept ch p).work = s.work := rfl
@[simp] theorem State.accept_w (s : State) (ch : Bool) (p : BitVec 4) : (s.accept ch p).w = s.w := rfl
@[simp] theorem State.accept_phase (s : State) (ch : Bool) (p : BitVec 4) : (s.accept ch p).phase = p := rfl
@[simp] theorem State.accept_chain (s : State) (ch : Bool) (p : BitVec 4) : (s.accept ch p).chain = ch := rfl
@[simp] theorem State.accept_done (s : State) (ch : Bool) (p : BitVec 4) : (s.accept ch p).done = false := rfl
@[simp] theorem State.accept_err (s : State) (ch : Bool) (p : BitVec 4) : (s.accept ch p).err = false := rfl
@[simp] theorem State.accept_errcode (s : State) (ch : Bool) (p : BitVec 4) : (s.accept ch p).errcode = 0 := rfl
@[simp] theorem State.accept_buf (s : State) (ch : Bool) (p : BitVec 4) : (s.accept ch p).buf = s.buf := rfl
@[simp] theorem State.accept_draws (s : State) (ch : Bool) (p : BitVec 4) : (s.accept ch p).draws = s.draws := rfl
@[simp] theorem State.accept_agenda (s : State) (ch : Bool) (p : BitVec 4) : (s.accept ch p).agenda = s.agenda := rfl
@[simp] theorem State.accept_replies (s : State) (ch : Bool) (p : BitVec 4) : (s.accept ch p).replies = s.replies := rfl

/-! ### `State.complete` -/

@[simp] theorem State.complete_bufCap (s : State) : (s.complete).bufCap = s.bufCap := rfl
@[simp] theorem State.complete_mlen (s : State) : (s.complete).mlen = s.mlen := rfl
@[simp] theorem State.complete_plen (s : State) : (s.complete).plen = s.plen := rfl
@[simp] theorem State.complete_nblk (s : State) : (s.complete).nblk = s.nblk := rfl
@[simp] theorem State.complete_blkidx (s : State) : (s.complete).blkidx = s.blkidx := rfl
@[simp] theorem State.complete_t (s : State) : (s.complete).t = s.t := rfl
@[simp] theorem State.complete_h (s : State) : (s.complete).h = s.h := rfl
@[simp] theorem State.complete_work (s : State) : (s.complete).work = s.work := rfl
@[simp] theorem State.complete_w (s : State) : (s.complete).w = s.w := rfl
@[simp] theorem State.complete_phase (s : State) : (s.complete).phase = Phase.idle := rfl
@[simp] theorem State.complete_chain (s : State) : (s.complete).chain = s.chain := rfl
@[simp] theorem State.complete_done (s : State) : (s.complete).done = true := rfl
@[simp] theorem State.complete_err (s : State) : (s.complete).err = s.err := rfl
@[simp] theorem State.complete_errcode (s : State) : (s.complete).errcode = s.errcode := rfl
@[simp] theorem State.complete_buf (s : State) : (s.complete).buf = s.buf := rfl
@[simp] theorem State.complete_draws (s : State) : (s.complete).draws = s.draws := rfl
@[simp] theorem State.complete_agenda (s : State) : (s.complete).agenda = s.agenda := rfl
@[simp] theorem State.complete_replies (s : State) : (s.complete).replies = s.replies := rfl

/-! ### `State.goto` -/

@[simp] theorem State.goto_bufCap (s : State) (p : BitVec 4) : (s.goto p).bufCap = s.bufCap := rfl
@[simp] theorem State.goto_mlen (s : State) (p : BitVec 4) : (s.goto p).mlen = s.mlen := rfl
@[simp] theorem State.goto_plen (s : State) (p : BitVec 4) : (s.goto p).plen = s.plen := rfl
@[simp] theorem State.goto_nblk (s : State) (p : BitVec 4) : (s.goto p).nblk = s.nblk := rfl
@[simp] theorem State.goto_blkidx (s : State) (p : BitVec 4) : (s.goto p).blkidx = s.blkidx := rfl
@[simp] theorem State.goto_t (s : State) (p : BitVec 4) : (s.goto p).t = s.t := rfl
@[simp] theorem State.goto_h (s : State) (p : BitVec 4) : (s.goto p).h = s.h := rfl
@[simp] theorem State.goto_work (s : State) (p : BitVec 4) : (s.goto p).work = s.work := rfl
@[simp] theorem State.goto_w (s : State) (p : BitVec 4) : (s.goto p).w = s.w := rfl
@[simp] theorem State.goto_phase (s : State) (p : BitVec 4) : (s.goto p).phase = p := rfl
@[simp] theorem State.goto_chain (s : State) (p : BitVec 4) : (s.goto p).chain = s.chain := rfl
@[simp] theorem State.goto_done (s : State) (p : BitVec 4) : (s.goto p).done = s.done := rfl
@[simp] theorem State.goto_err (s : State) (p : BitVec 4) : (s.goto p).err = s.err := rfl
@[simp] theorem State.goto_errcode (s : State) (p : BitVec 4) : (s.goto p).errcode = s.errcode := rfl
@[simp] theorem State.goto_buf (s : State) (p : BitVec 4) : (s.goto p).buf = s.buf := rfl
@[simp] theorem State.goto_draws (s : State) (p : BitVec 4) : (s.goto p).draws = s.draws := rfl
@[simp] theorem State.goto_agenda (s : State) (p : BitVec 4) : (s.goto p).agenda = s.agenda := rfl
@[simp] theorem State.goto_replies (s : State) (p : BitVec 4) : (s.goto p).replies = s.replies := rfl

/-! ### `State.unchain` -/

@[simp] theorem State.unchain_bufCap (s : State) : (s.unchain).bufCap = s.bufCap := rfl
@[simp] theorem State.unchain_mlen (s : State) : (s.unchain).mlen = s.mlen := rfl
@[simp] theorem State.unchain_plen (s : State) : (s.unchain).plen = s.plen := rfl
@[simp] theorem State.unchain_nblk (s : State) : (s.unchain).nblk = s.nblk := rfl
@[simp] theorem State.unchain_blkidx (s : State) : (s.unchain).blkidx = s.blkidx := rfl
@[simp] theorem State.unchain_t (s : State) : (s.unchain).t = s.t := rfl
@[simp] theorem State.unchain_h (s : State) : (s.unchain).h = s.h := rfl
@[simp] theorem State.unchain_work (s : State) : (s.unchain).work = s.work := rfl
@[simp] theorem State.unchain_w (s : State) : (s.unchain).w = s.w := rfl
@[simp] theorem State.unchain_phase (s : State) : (s.unchain).phase = Phase.check := rfl
@[simp] theorem State.unchain_chain (s : State) : (s.unchain).chain = false := rfl
@[simp] theorem State.unchain_done (s : State) : (s.unchain).done = s.done := rfl
@[simp] theorem State.unchain_err (s : State) : (s.unchain).err = s.err := rfl
@[simp] theorem State.unchain_errcode (s : State) : (s.unchain).errcode = s.errcode := rfl
@[simp] theorem State.unchain_buf (s : State) : (s.unchain).buf = s.buf := rfl
@[simp] theorem State.unchain_draws (s : State) : (s.unchain).draws = s.draws := rfl
@[simp] theorem State.unchain_agenda (s : State) : (s.unchain).agenda = s.agenda := rfl
@[simp] theorem State.unchain_replies (s : State) : (s.unchain).replies = s.replies := rfl

/-! ### `State.raiseAlignmentError` -/

@[simp] theorem State.raiseAlignmentError_bufCap (s : State) : (s.raiseAlignmentError).bufCap = s.bufCap := rfl
@[simp] theorem State.raiseAlignmentError_mlen (s : State) : (s.raiseAlignmentError).mlen = s.mlen := rfl
@[simp] theorem State.raiseAlignmentError_plen (s : State) : (s.raiseAlignmentError).plen = s.plen := rfl
@[simp] theorem State.raiseAlignmentError_nblk (s : State) : (s.raiseAlignmentError).nblk = s.nblk := rfl
@[simp] theorem State.raiseAlignmentError_blkidx (s : State) : (s.raiseAlignmentError).blkidx = s.blkidx := rfl
@[simp] theorem State.raiseAlignmentError_t (s : State) : (s.raiseAlignmentError).t = s.t := rfl
@[simp] theorem State.raiseAlignmentError_h (s : State) : (s.raiseAlignmentError).h = s.h := rfl
@[simp] theorem State.raiseAlignmentError_work (s : State) : (s.raiseAlignmentError).work = s.work := rfl
@[simp] theorem State.raiseAlignmentError_w (s : State) : (s.raiseAlignmentError).w = s.w := rfl
@[simp] theorem State.raiseAlignmentError_phase (s : State) : (s.raiseAlignmentError).phase = Phase.idle := rfl
@[simp] theorem State.raiseAlignmentError_chain (s : State) : (s.raiseAlignmentError).chain = s.chain := rfl
@[simp] theorem State.raiseAlignmentError_done (s : State) : (s.raiseAlignmentError).done = s.done := rfl
@[simp] theorem State.raiseAlignmentError_err (s : State) : (s.raiseAlignmentError).err = true := rfl
@[simp] theorem State.raiseAlignmentError_errcode (s : State) : (s.raiseAlignmentError).errcode = 1 := rfl
@[simp] theorem State.raiseAlignmentError_buf (s : State) : (s.raiseAlignmentError).buf = s.buf := rfl
@[simp] theorem State.raiseAlignmentError_draws (s : State) : (s.raiseAlignmentError).draws = s.draws := rfl
@[simp] theorem State.raiseAlignmentError_agenda (s : State) : (s.raiseAlignmentError).agenda = s.agenda := rfl
@[simp] theorem State.raiseAlignmentError_replies (s : State) : (s.raiseAlignmentError).replies = s.replies := rfl

/-! ### `State.reply` -/

@[simp] theorem State.reply_bufCap (s : State) (addr v : Word) : (s.reply addr v).bufCap = s.bufCap := rfl
@[simp] theorem State.reply_mlen (s : State) (addr v : Word) : (s.reply addr v).mlen = s.mlen := rfl
@[simp] theorem State.reply_plen (s : State) (addr v : Word) : (s.reply addr v).plen = s.plen := rfl
@[simp] theorem State.reply_nblk (s : State) (addr v : Word) : (s.reply addr v).nblk = s.nblk := rfl
@[simp] theorem State.reply_blkidx (s : State) (addr v : Word) : (s.reply addr v).blkidx = s.blkidx := rfl
@[simp] theorem State.reply_t (s : State) (addr v : Word) : (s.reply addr v).t = s.t := rfl
@[simp] theorem State.reply_h (s : State) (addr v : Word) : (s.reply addr v).h = s.h := rfl
@[simp] theorem State.reply_work (s : State) (addr v : Word) : (s.reply addr v).work = s.work := rfl
@[simp] theorem State.reply_w (s : State) (addr v : Word) : (s.reply addr v).w = s.w := rfl
@[simp] theorem State.reply_phase (s : State) (addr v : Word) : (s.reply addr v).phase = s.phase := rfl
@[simp] theorem State.reply_chain (s : State) (addr v : Word) : (s.reply addr v).chain = s.chain := rfl
@[simp] theorem State.reply_done (s : State) (addr v : Word) : (s.reply addr v).done = s.done := rfl
@[simp] theorem State.reply_err (s : State) (addr v : Word) : (s.reply addr v).err = s.err := rfl
@[simp] theorem State.reply_errcode (s : State) (addr v : Word) : (s.reply addr v).errcode = s.errcode := rfl
@[simp] theorem State.reply_buf (s : State) (addr v : Word) : (s.reply addr v).buf = s.buf := rfl
@[simp] theorem State.reply_draws (s : State) (addr v : Word) :
    (s.reply addr v).draws = if s.inBuf (alignWord addr) then s.draws + 1 else s.draws :=
  rfl
@[simp] theorem State.reply_agenda (s : State) (addr v : Word) : (s.reply addr v).agenda = s.agenda := rfl
@[simp] theorem State.reply_replies (s : State) (addr v : Word) : (s.reply addr v).replies = v :: s.replies := rfl

/-! ### `State.withAgenda` -/

@[simp] theorem State.withAgenda_bufCap (s : State) (l : List Event) : (s.withAgenda l).bufCap = s.bufCap := rfl
@[simp] theorem State.withAgenda_mlen (s : State) (l : List Event) : (s.withAgenda l).mlen = s.mlen := rfl
@[simp] theorem State.withAgenda_plen (s : State) (l : List Event) : (s.withAgenda l).plen = s.plen := rfl
@[simp] theorem State.withAgenda_nblk (s : State) (l : List Event) : (s.withAgenda l).nblk = s.nblk := rfl
@[simp] theorem State.withAgenda_blkidx (s : State) (l : List Event) : (s.withAgenda l).blkidx = s.blkidx := rfl
@[simp] theorem State.withAgenda_t (s : State) (l : List Event) : (s.withAgenda l).t = s.t := rfl
@[simp] theorem State.withAgenda_h (s : State) (l : List Event) : (s.withAgenda l).h = s.h := rfl
@[simp] theorem State.withAgenda_work (s : State) (l : List Event) : (s.withAgenda l).work = s.work := rfl
@[simp] theorem State.withAgenda_w (s : State) (l : List Event) : (s.withAgenda l).w = s.w := rfl
@[simp] theorem State.withAgenda_phase (s : State) (l : List Event) : (s.withAgenda l).phase = s.phase := rfl
@[simp] theorem State.withAgenda_chain (s : State) (l : List Event) : (s.withAgenda l).chain = s.chain := rfl
@[simp] theorem State.withAgenda_done (s : State) (l : List Event) : (s.withAgenda l).done = s.done := rfl
@[simp] theorem State.withAgenda_err (s : State) (l : List Event) : (s.withAgenda l).err = s.err := rfl
@[simp] theorem State.withAgenda_errcode (s : State) (l : List Event) : (s.withAgenda l).errcode = s.errcode := rfl
@[simp] theorem State.withAgenda_buf (s : State) (l : List Event) : (s.withAgenda l).buf = s.buf := rfl
@[simp] theorem State.withAgenda_draws (s : State) (l : List Event) : (s.withAgenda l).draws = s.draws := rfl
@[simp] theorem State.withAgenda_agenda (s : State) (l : List Event) : (s.withAgenda l).agenda = l := rfl
@[simp] theorem State.withAgenda_replies (s : State) (l : List Event) : (s.withAgenda l).replies = s.replies := rfl

/-! ### `State.padded` -/

@[simp] theorem State.padded_bufCap (s : State) : (s.padded).bufCap = s.bufCap := rfl
@[simp] theorem State.padded_mlen (s : State) : (s.padded).mlen = s.mlen := rfl
@[simp] theorem State.padded_plen (s : State) : (s.padded).plen = BitVec.ofNat 32 (paddedLength s.messageLength) := rfl
@[simp] theorem State.padded_nblk (s : State) : (s.padded).nblk = s.nblk := rfl
@[simp] theorem State.padded_blkidx (s : State) : (s.padded).blkidx = s.blkidx := rfl
@[simp] theorem State.padded_t (s : State) : (s.padded).t = s.t := rfl
@[simp] theorem State.padded_h (s : State) : (s.padded).h = s.h := rfl
@[simp] theorem State.padded_work (s : State) : (s.padded).work = s.work := rfl
@[simp] theorem State.padded_w (s : State) : (s.padded).w = s.w := rfl
@[simp] theorem State.padded_phase (s : State) : (s.padded).phase = s.phase := rfl
@[simp] theorem State.padded_chain (s : State) : (s.padded).chain = s.chain := rfl
@[simp] theorem State.padded_done (s : State) : (s.padded).done = s.done := rfl
@[simp] theorem State.padded_err (s : State) : (s.padded).err = s.err := rfl
@[simp] theorem State.padded_errcode (s : State) : (s.padded).errcode = s.errcode := rfl
@[simp] theorem State.padded_buf (s : State) : (s.padded).buf = s.buf.setBytes s.messageLength (padTail s.messageLength) :=
  rfl
@[simp] theorem State.padded_draws (s : State) : (s.padded).draws = s.draws := rfl
@[simp] theorem State.padded_agenda (s : State) : (s.padded).agenda = s.agenda := rfl
@[simp] theorem State.padded_replies (s : State) : (s.padded).replies = s.replies := rfl

/-! ### `State.loadIv` -/

@[simp] theorem State.loadIv_bufCap (s : State) : (s.loadIv).bufCap = s.bufCap := rfl
@[simp] theorem State.loadIv_mlen (s : State) : (s.loadIv).mlen = s.mlen := rfl
@[simp] theorem State.loadIv_plen (s : State) : (s.loadIv).plen = s.plen := rfl
@[simp] theorem State.loadIv_nblk (s : State) : (s.loadIv).nblk = BitVec.ofNat 32 (s.plen.toNat / 64) := rfl
@[simp] theorem State.loadIv_blkidx (s : State) : (s.loadIv).blkidx = 0 := rfl
@[simp] theorem State.loadIv_t (s : State) : (s.loadIv).t = s.t := rfl
@[simp] theorem State.loadIv_h (s : State) : (s.loadIv).h = iv := rfl
@[simp] theorem State.loadIv_work (s : State) : (s.loadIv).work = s.work := rfl
@[simp] theorem State.loadIv_w (s : State) : (s.loadIv).w = s.w := rfl
@[simp] theorem State.loadIv_phase (s : State) : (s.loadIv).phase = s.phase := rfl
@[simp] theorem State.loadIv_chain (s : State) : (s.loadIv).chain = s.chain := rfl
@[simp] theorem State.loadIv_done (s : State) : (s.loadIv).done = s.done := rfl
@[simp] theorem State.loadIv_err (s : State) : (s.loadIv).err = s.err := rfl
@[simp] theorem State.loadIv_errcode (s : State) : (s.loadIv).errcode = s.errcode := rfl
@[simp] theorem State.loadIv_buf (s : State) : (s.loadIv).buf = s.buf := rfl
@[simp] theorem State.loadIv_draws (s : State) : (s.loadIv).draws = s.draws := rfl
@[simp] theorem State.loadIv_agenda (s : State) : (s.loadIv).agenda = s.agenda := rfl
@[simp] theorem State.loadIv_replies (s : State) : (s.loadIv).replies = s.replies := rfl

/-! ### `State.scheduled` -/

@[simp] theorem State.scheduled_bufCap (s : State) : (s.scheduled).bufCap = s.bufCap := rfl
@[simp] theorem State.scheduled_mlen (s : State) : (s.scheduled).mlen = s.mlen := rfl
@[simp] theorem State.scheduled_plen (s : State) : (s.scheduled).plen = s.plen := rfl
@[simp] theorem State.scheduled_nblk (s : State) : (s.scheduled).nblk = s.nblk := rfl
@[simp] theorem State.scheduled_blkidx (s : State) : (s.scheduled).blkidx = s.blkidx := rfl
@[simp] theorem State.scheduled_t (s : State) : (s.scheduled).t = 0 := rfl
@[simp] theorem State.scheduled_h (s : State) : (s.scheduled).h = s.h := rfl
@[simp] theorem State.scheduled_work (s : State) : (s.scheduled).work = Working.ofDigest s.h := rfl
@[simp] theorem State.scheduled_w (s : State) : (s.scheduled).w = schedule fun k => s.bufWord (s.blockBase + 4 * k) :=
  rfl
@[simp] theorem State.scheduled_phase (s : State) : (s.scheduled).phase = s.phase := rfl
@[simp] theorem State.scheduled_chain (s : State) : (s.scheduled).chain = s.chain := rfl
@[simp] theorem State.scheduled_done (s : State) : (s.scheduled).done = s.done := rfl
@[simp] theorem State.scheduled_err (s : State) : (s.scheduled).err = s.err := rfl
@[simp] theorem State.scheduled_errcode (s : State) : (s.scheduled).errcode = s.errcode := rfl
@[simp] theorem State.scheduled_buf (s : State) : (s.scheduled).buf = s.buf := rfl
@[simp] theorem State.scheduled_draws (s : State) : (s.scheduled).draws = s.draws := rfl
@[simp] theorem State.scheduled_agenda (s : State) : (s.scheduled).agenda = s.agenda := rfl
@[simp] theorem State.scheduled_replies (s : State) : (s.scheduled).replies = s.replies := rfl

/-! ### `State.rounded` -/

@[simp] theorem State.rounded_bufCap (s : State) (wt : Word) : (s.rounded wt).bufCap = s.bufCap := rfl
@[simp] theorem State.rounded_mlen (s : State) (wt : Word) : (s.rounded wt).mlen = s.mlen := rfl
@[simp] theorem State.rounded_plen (s : State) (wt : Word) : (s.rounded wt).plen = s.plen := rfl
@[simp] theorem State.rounded_nblk (s : State) (wt : Word) : (s.rounded wt).nblk = s.nblk := rfl
@[simp] theorem State.rounded_blkidx (s : State) (wt : Word) : (s.rounded wt).blkidx = s.blkidx := rfl
@[simp] theorem State.rounded_t (s : State) (wt : Word) : (s.rounded wt).t = s.t + 1 := rfl
@[simp] theorem State.rounded_h (s : State) (wt : Word) : (s.rounded wt).h = s.h := rfl
@[simp] theorem State.rounded_work (s : State) (wt : Word) : (s.rounded wt).work = roundStep s.t.toNat wt s.work := rfl
@[simp] theorem State.rounded_w (s : State) (wt : Word) : (s.rounded wt).w = s.w := rfl
@[simp] theorem State.rounded_phase (s : State) (wt : Word) : (s.rounded wt).phase = s.phase := rfl
@[simp] theorem State.rounded_chain (s : State) (wt : Word) : (s.rounded wt).chain = s.chain := rfl
@[simp] theorem State.rounded_done (s : State) (wt : Word) : (s.rounded wt).done = s.done := rfl
@[simp] theorem State.rounded_err (s : State) (wt : Word) : (s.rounded wt).err = s.err := rfl
@[simp] theorem State.rounded_errcode (s : State) (wt : Word) : (s.rounded wt).errcode = s.errcode := rfl
@[simp] theorem State.rounded_buf (s : State) (wt : Word) : (s.rounded wt).buf = s.buf := rfl
@[simp] theorem State.rounded_draws (s : State) (wt : Word) : (s.rounded wt).draws = s.draws := rfl
@[simp] theorem State.rounded_agenda (s : State) (wt : Word) : (s.rounded wt).agenda = s.agenda := rfl
@[simp] theorem State.rounded_replies (s : State) (wt : Word) : (s.rounded wt).replies = s.replies := rfl

/-! ### `State.accumulated` -/

@[simp] theorem State.accumulated_bufCap (s : State) : (s.accumulated).bufCap = s.bufCap := rfl
@[simp] theorem State.accumulated_mlen (s : State) : (s.accumulated).mlen = s.mlen := rfl
@[simp] theorem State.accumulated_plen (s : State) : (s.accumulated).plen = s.plen := rfl
@[simp] theorem State.accumulated_nblk (s : State) : (s.accumulated).nblk = s.nblk := rfl
@[simp] theorem State.accumulated_blkidx (s : State) : (s.accumulated).blkidx = s.blkidx + 1 := rfl
@[simp] theorem State.accumulated_t (s : State) : (s.accumulated).t = s.t := rfl
@[simp] theorem State.accumulated_h (s : State) : (s.accumulated).h = s.h.add s.work := rfl
@[simp] theorem State.accumulated_work (s : State) : (s.accumulated).work = s.work := rfl
@[simp] theorem State.accumulated_w (s : State) : (s.accumulated).w = s.w := rfl
@[simp] theorem State.accumulated_phase (s : State) : (s.accumulated).phase = s.phase := rfl
@[simp] theorem State.accumulated_chain (s : State) : (s.accumulated).chain = s.chain := rfl
@[simp] theorem State.accumulated_done (s : State) : (s.accumulated).done = s.done := rfl
@[simp] theorem State.accumulated_err (s : State) : (s.accumulated).err = s.err := rfl
@[simp] theorem State.accumulated_errcode (s : State) : (s.accumulated).errcode = s.errcode := rfl
@[simp] theorem State.accumulated_buf (s : State) : (s.accumulated).buf = s.buf := rfl
@[simp] theorem State.accumulated_draws (s : State) : (s.accumulated).draws = s.draws := rfl
@[simp] theorem State.accumulated_agenda (s : State) : (s.accumulated).agenda = s.agenda := rfl
@[simp] theorem State.accumulated_replies (s : State) : (s.accumulated).replies = s.replies := rfl

/-! ### `State.resetEvent` -/

@[simp] theorem State.resetEvent_bufCap (s : State) : s.resetEvent.bufCap = s.bufCap := rfl
@[simp] theorem State.resetEvent_mlen (s : State) : s.resetEvent.mlen = 0 := rfl
@[simp] theorem State.resetEvent_plen (s : State) : s.resetEvent.plen = 0 := rfl
@[simp] theorem State.resetEvent_nblk (s : State) : s.resetEvent.nblk = 0 := rfl
@[simp] theorem State.resetEvent_blkidx (s : State) : s.resetEvent.blkidx = 0 := rfl
@[simp] theorem State.resetEvent_t (s : State) : s.resetEvent.t = 0 := rfl
@[simp] theorem State.resetEvent_h (s : State) : s.resetEvent.h = iv := rfl
@[simp] theorem State.resetEvent_work (s : State) : s.resetEvent.work = ⟨0, 0, 0, 0, 0⟩ := rfl
@[simp] theorem State.resetEvent_w (s : State) : s.resetEvent.w = Vector.replicate 80 0 := rfl
@[simp] theorem State.resetEvent_phase (s : State) : s.resetEvent.phase = Phase.idle := rfl
@[simp] theorem State.resetEvent_chain (s : State) : s.resetEvent.chain = false := rfl
@[simp] theorem State.resetEvent_done (s : State) : s.resetEvent.done = false := rfl
@[simp] theorem State.resetEvent_err (s : State) : s.resetEvent.err = false := rfl
@[simp] theorem State.resetEvent_errcode (s : State) : s.resetEvent.errcode = 0 := rfl
@[simp] theorem State.resetEvent_buf (s : State) : s.resetEvent.buf = [] := rfl
@[simp] theorem State.resetEvent_draws (s : State) : s.resetEvent.draws = s.draws := rfl
@[simp] theorem State.resetEvent_agenda (s : State) : s.resetEvent.agenda = s.agenda := rfl
@[simp] theorem State.resetEvent_replies (s : State) : s.resetEvent.replies = s.replies := rfl

/-! ### `State.writeMlen` and `State.writePlen` -/

@[simp] theorem State.writeMlen_bufCap (s : State) (v : Word) : (s.writeMlen v).bufCap = s.bufCap := by
  unfold State.writeMlen; split <;> rfl
@[simp] theorem State.writeMlen_mlen (s : State) (v : Word) :
    (s.writeMlen v).mlen = if v.toNat + 9 ≤ s.bufCap then v else s.mlen := by
  unfold State.writeMlen; split <;> rfl
@[simp] theorem State.writeMlen_plen (s : State) (v : Word) : (s.writeMlen v).plen = s.plen := by
  unfold State.writeMlen; split <;> rfl
@[simp] theorem State.writeMlen_nblk (s : State) (v : Word) : (s.writeMlen v).nblk = s.nblk := by
  unfold State.writeMlen; split <;> rfl
@[simp] theorem State.writeMlen_blkidx (s : State) (v : Word) : (s.writeMlen v).blkidx = s.blkidx := by
  unfold State.writeMlen; split <;> rfl
@[simp] theorem State.writeMlen_t (s : State) (v : Word) : (s.writeMlen v).t = s.t := by
  unfold State.writeMlen; split <;> rfl
@[simp] theorem State.writeMlen_h (s : State) (v : Word) : (s.writeMlen v).h = s.h := by
  unfold State.writeMlen; split <;> rfl
@[simp] theorem State.writeMlen_work (s : State) (v : Word) : (s.writeMlen v).work = s.work := by
  unfold State.writeMlen; split <;> rfl
@[simp] theorem State.writeMlen_w (s : State) (v : Word) : (s.writeMlen v).w = s.w := by
  unfold State.writeMlen; split <;> rfl
@[simp] theorem State.writeMlen_phase (s : State) (v : Word) : (s.writeMlen v).phase = s.phase := by
  unfold State.writeMlen; split <;> rfl
@[simp] theorem State.writeMlen_chain (s : State) (v : Word) : (s.writeMlen v).chain = s.chain := by
  unfold State.writeMlen; split <;> rfl
@[simp] theorem State.writeMlen_done (s : State) (v : Word) : (s.writeMlen v).done = s.done := by
  unfold State.writeMlen; split <;> rfl
@[simp] theorem State.writeMlen_err (s : State) (v : Word) : (s.writeMlen v).err = s.err := by
  unfold State.writeMlen; split <;> rfl
@[simp] theorem State.writeMlen_errcode (s : State) (v : Word) : (s.writeMlen v).errcode = s.errcode := by
  unfold State.writeMlen; split <;> rfl
@[simp] theorem State.writeMlen_buf (s : State) (v : Word) : (s.writeMlen v).buf = s.buf := by
  unfold State.writeMlen; split <;> rfl
@[simp] theorem State.writeMlen_draws (s : State) (v : Word) : (s.writeMlen v).draws = s.draws := by
  unfold State.writeMlen; split <;> rfl
@[simp] theorem State.writeMlen_agenda (s : State) (v : Word) : (s.writeMlen v).agenda = s.agenda := by
  unfold State.writeMlen; split <;> rfl
@[simp] theorem State.writeMlen_replies (s : State) (v : Word) : (s.writeMlen v).replies = s.replies := by
  unfold State.writeMlen; split <;> rfl

@[simp] theorem State.writePlen_bufCap (s : State) (v : Word) : (s.writePlen v).bufCap = s.bufCap := by
  unfold State.writePlen; split <;> rfl
@[simp] theorem State.writePlen_mlen (s : State) (v : Word) : (s.writePlen v).mlen = s.mlen := by
  unfold State.writePlen; split <;> rfl
@[simp] theorem State.writePlen_plen (s : State) (v : Word) :
    (s.writePlen v).plen = if v.toNat ≤ s.bufCap then v else s.plen := by
  unfold State.writePlen; split <;> rfl
@[simp] theorem State.writePlen_nblk (s : State) (v : Word) : (s.writePlen v).nblk = s.nblk := by
  unfold State.writePlen; split <;> rfl
@[simp] theorem State.writePlen_blkidx (s : State) (v : Word) : (s.writePlen v).blkidx = s.blkidx := by
  unfold State.writePlen; split <;> rfl
@[simp] theorem State.writePlen_t (s : State) (v : Word) : (s.writePlen v).t = s.t := by
  unfold State.writePlen; split <;> rfl
@[simp] theorem State.writePlen_h (s : State) (v : Word) : (s.writePlen v).h = s.h := by
  unfold State.writePlen; split <;> rfl
@[simp] theorem State.writePlen_work (s : State) (v : Word) : (s.writePlen v).work = s.work := by
  unfold State.writePlen; split <;> rfl
@[simp] theorem State.writePlen_w (s : State) (v : Word) : (s.writePlen v).w = s.w := by
  unfold State.writePlen; split <;> rfl
@[simp] theorem State.writePlen_phase (s : State) (v : Word) : (s.writePlen v).phase = s.phase := by
  unfold State.writePlen; split <;> rfl
@[simp] theorem State.writePlen_chain (s : State) (v : Word) : (s.writePlen v).chain = s.chain := by
  unfold State.writePlen; split <;> rfl
@[simp] theorem State.writePlen_done (s : State) (v : Word) : (s.writePlen v).done = s.done := by
  unfold State.writePlen; split <;> rfl
@[simp] theorem State.writePlen_err (s : State) (v : Word) : (s.writePlen v).err = s.err := by
  unfold State.writePlen; split <;> rfl
@[simp] theorem State.writePlen_errcode (s : State) (v : Word) : (s.writePlen v).errcode = s.errcode := by
  unfold State.writePlen; split <;> rfl
@[simp] theorem State.writePlen_buf (s : State) (v : Word) : (s.writePlen v).buf = s.buf := by
  unfold State.writePlen; split <;> rfl
@[simp] theorem State.writePlen_draws (s : State) (v : Word) : (s.writePlen v).draws = s.draws := by
  unfold State.writePlen; split <;> rfl
@[simp] theorem State.writePlen_agenda (s : State) (v : Word) : (s.writePlen v).agenda = s.agenda := by
  unfold State.writePlen; split <;> rfl
@[simp] theorem State.writePlen_replies (s : State) (v : Word) : (s.writePlen v).replies = s.replies := by
  unfold State.writePlen; split <;> rfl

/-! ### `State.popped` -/

@[simp] theorem State.popped_bufCap (s : State) : s.popped.bufCap = s.bufCap := rfl
@[simp] theorem State.popped_mlen (s : State) : s.popped.mlen = s.mlen := rfl
@[simp] theorem State.popped_plen (s : State) : s.popped.plen = s.plen := rfl
@[simp] theorem State.popped_nblk (s : State) : s.popped.nblk = s.nblk := rfl
@[simp] theorem State.popped_blkidx (s : State) : s.popped.blkidx = s.blkidx := rfl
@[simp] theorem State.popped_t (s : State) : s.popped.t = s.t := rfl
@[simp] theorem State.popped_h (s : State) : s.popped.h = s.h := rfl
@[simp] theorem State.popped_work (s : State) : s.popped.work = s.work := rfl
@[simp] theorem State.popped_w (s : State) : s.popped.w = s.w := rfl
@[simp] theorem State.popped_phase (s : State) : s.popped.phase = s.phase := rfl
@[simp] theorem State.popped_chain (s : State) : s.popped.chain = s.chain := rfl
@[simp] theorem State.popped_done (s : State) : s.popped.done = s.done := rfl
@[simp] theorem State.popped_err (s : State) : s.popped.err = s.err := rfl
@[simp] theorem State.popped_errcode (s : State) : s.popped.errcode = s.errcode := rfl
@[simp] theorem State.popped_buf (s : State) : s.popped.buf = s.buf := rfl
@[simp] theorem State.popped_draws (s : State) : s.popped.draws = s.draws := rfl
@[simp] theorem State.popped_agenda (s : State) : s.popped.agenda = s.agenda.tail := rfl
@[simp] theorem State.popped_replies (s : State) : s.popped.replies = s.replies := rfl

end Sys2Proof.Machine
end

