-- ==== Sys2Proof/Laws/Ops.lean ====
section
/-!
SUPPORT. What each shared operation can do, said once: the value of an engine step in each PHASE, the cases of a host write,
the value of each meaning, and the one inversion lemma of a step.
-/
namespace Sys2Proof.Machine

/-! ### A step -/

/-- A step performs the next event on the state without it (44_commands.md R181; log 1). -/
theorem step_eq (s : State) : step s = performEvent exec s.nextEvent s.popped := by
  unfold step stepWith State.nextEvent State.popped
  split
  next h => rw [h]; obtain ⟨⟩ := s; cases h; rfl
  next e rest h => rw [h]; rfl

theorem step_engine {s : State} (h : s.nextEvent = .engine) : step s = engineStep exec s.popped := by
  rw [step_eq, h]; rfl

theorem step_reset {s : State} (h : s.nextEvent = .reset) : step s = .next s.popped.resetEvent := by
  rw [step_eq, h]; rfl

theorem step_read {s : State} {addr : Word} (h : s.nextEvent = .bus (.read addr)) :
    step s = hostRead addr s.popped := by
  rw [step_eq, h]; rfl

theorem step_write {s : State} {addr v : Word} (h : s.nextEvent = .bus (.write addr v)) :
    step s = hostWrite exec addr v s.popped := by
  rw [step_eq, h]; rfl

/-! ### The engine step in each PHASE (30_encoding.md R95) -/

theorem engineStep_idle {run : Instr → State → Result} {s : State} (h : s.phase = 0#4) : engineStep run s = .next s := by
  simp only [engineStep, h]; rfl

theorem engineStep_pad {run : Instr → State → Result} {s : State} (h : s.phase = 1#4) :
    engineStep run s = run .uopPad s := by
  simp only [engineStep, h]; rfl

theorem engineStep_check {run : Instr → State → Result} {s : State} (h : s.phase = 2#4) :
    engineStep run s = run .uopCheck s := by
  simp only [engineStep, h]; rfl

theorem engineStep_sched {run : Instr → State → Result} {s : State} (h : s.phase = 3#4) :
    engineStep run s = run .uopSched s := by
  simp only [engineStep, h]; rfl

theorem engineStep_round {run : Instr → State → Result} {s : State} (h : s.phase = 4#4) :
    engineStep run s = run .uopRound s := by
  simp only [engineStep, h]; rfl

theorem engineStep_accum {run : Instr → State → Result} {s : State} (h : s.phase = 5#4) :
    engineStep run s = run .uopAccum s := by
  simp only [engineStep, h]; rfl

/-- The sixteen values of PHASE: idle, the five micro-operations, or reserved. -/
theorem phase_cases (p : BitVec 4) :
    p = 0#4 ∨ p = 1#4 ∨ p = 2#4 ∨ p = 3#4 ∨ p = 4#4 ∨ p = 5#4 ∨ 6 ≤ p.toNat := by
  revert p; decide

theorem engineStep_reserved {run : Instr → State → Result} {s : State} (h : 6 ≤ s.phase.toNat) :
    engineStep run s = .fault .reservedPhase := by
  have : decode (.phase s.phase) = .error .reservedPhase := by
    generalize s.phase = p at h; revert p; decide
  simp only [engineStep, this]

/-! ### Commands -/

/-- A command word with RSV 0 is its OP. -/
theorem rsvField_eq_zero_iff (v : Word) : rsvField v = 0#28 ↔ v.toNat < 16 := by
  have := v.isLt
  rw [← BitVec.toNat_inj, rsvField, BitVec.extractLsb'_toNat, Nat.shiftRight_eq_div_pow, BitVec.toNat_ofNat]
  omega

theorem opField_toNat (v : Word) : (opField v).toNat = v.toNat % 16 := by
  rw [opField, BitVec.extractLsb'_toNat, Nat.shiftRight_zero]

/-- What a word written to CMD stands for, by its value. -/
theorem decodeCommand_eq (v : Word) :
    decodeCommand v = if v.toNat = 0 then .ok .nop else if v.toNat = 1 then .ok .pad
      else if v.toNat = 2 then .ok .compute else if v.toNat = 3 then .ok .hash else .error .reservedCommand := by
  have op (n : Nat) (hn : n < 16) : opField v = BitVec.ofNat 4 n ↔ v.toNat % 16 = n := by
    rw [← BitVec.toNat_inj, opField_toNat, BitVec.toNat_ofNat]; omega
  unfold decodeCommand
  simp only [rsvField_eq_zero_iff, op 0 (by decide), op 1 (by decide), op 2 (by decide), op 3 (by decide)]
  split
  next h => simp only [Nat.mod_eq_of_lt h]
  next h => rw [if_neg (by omega), if_neg (by omega), if_neg (by omega), if_neg (by omega)]

/-- A started command is accepted while idle. -/
theorem startCommand_idle {ch : Bool} {p : BitVec 4} {s : State} (h : s.phase = 0#4) :
    startCommand ch p s = .next (s.accept ch p) := if_pos h

/-- A started command is ignored while busy. -/
theorem startCommand_busy {ch : Bool} {p : BitVec 4} {s : State} (h : s.phase ≠ 0#4) :
    startCommand ch p s = .next s := if_neg h

/-- Command acceptance while idle, by the value of the word (44_commands.md R180, R186). -/
theorem commandAccept_idle {s : State} (h : s.phase = 0#4) (v : Word) :
    commandAccept exec v s = .next (if v.toNat = 1 then s.accept false 1#4 else if v.toNat = 2 then s.accept false 2#4
      else if v.toNat = 3 then s.accept true 1#4 else s) := by
  simp only [commandAccept, decode, decodeCommand_eq]
  have h0 : ¬(0 = 1) := by decide
  split_ifs with a b c d
  all_goals first
    | omega
    | simp [exec, execNop, execPad, execCompute, execHash, startCommand_idle h]

/-! ### Host writes -/

/-- A host write while busy is ignored (20_memory.md R64). -/
theorem hostWrite_busy {run : Instr → State → Result} {s : State} (h : s.phase ≠ 0#4) (addr v : Word) :
    hostWrite run addr v s = .next s := if_pos h

/-- A host write while idle, by the number of its word address (20_memory.md R63). -/
theorem hostWrite_idle {run : Instr → State → Result} {s : State} (h : s.phase = 0#4) (addr v : Word) :
    hostWrite run addr v s =
      if wordAddr addr = 0x004 then commandAccept run v s
      else if wordAddr addr = 0x00C then .next (s.writeMlen v)
      else if wordAddr addr = 0x010 then .next (s.writePlen v)
      else if 2 ^ 31 ≤ wordAddr addr ∧ wordAddr addr < 2 ^ 31 + s.bufCap then
        .next (s.storeBytes (wordAddr addr - 2 ^ 31) (be32Bytes v))
      else .next s := by
  unfold hostWrite
  rw [if_neg (by simpa using h)]
  simp only [alignWord_eq_iff, State.inBuf_iff, alignWord_toNat, bufIndex]
  rfl

/-! ### The micro-operations: each one's value, by the condition it tests -/

theorem execUopPad_fits {s : State} (h : paddedLength s.mlen.toNat ≤ s.bufCap) :
    execUopPad s = .next (if s.chain then s.padded.unchain else s.padded.complete) := by
  rw [execUopPad, State.messageLength, if_neg (Nat.not_lt.2 h)]; split <;> rfl

theorem execUopPad_overrun {s : State} (h : s.bufCap < paddedLength s.mlen.toNat) :
    execUopPad s = .fault .outsideBuf := if_pos h

theorem execUopCheck_misaligned {s : State} (h : s.plen.toNat % 64 ≠ 0) :
    execUopCheck s = .next s.raiseAlignmentError := if_pos h

theorem execUopCheck_empty {s : State} (h : s.plen.toNat = 0) :
    execUopCheck s = .next s.loadIv.complete := by
  rw [execUopCheck, if_neg (by simp [h]), if_pos (by simp [h])]

theorem execUopCheck_blocks {s : State} (h : s.plen.toNat % 64 = 0) (h0 : s.plen.toNat ≠ 0) :
    execUopCheck s = .next (s.loadIv.goto 3#4) := by
  rw [execUopCheck, if_neg (by simp [h]), if_neg (by omega)]

theorem execUopSched_fits {s : State} (h : 64 * s.blkidx.toNat + 64 ≤ s.bufCap) :
    execUopSched s = .next (s.scheduled.drawn.goto 4#4) := if_neg (Nat.not_lt.2 h)

theorem execUopSched_overrun {s : State} (h : s.bufCap < 64 * s.blkidx.toNat + 64) :
    execUopSched s = .fault .outsideBuf := if_pos h

theorem execUopRound_next {s : State} (h : s.t.toNat < 80) :
    execUopRound s = .next ((s.rounded s.w[s.t.toNat]).goto (if s.t.toNat = 79 then 5#4 else 4#4)) := by
  have last : s.t + 1 = 80#7 ↔ s.t.toNat = 79 := by
    rw [← BitVec.toNat_inj, BitVec.toNat_add]; simp; omega
  rw [execUopRound, dif_pos h]
  by_cases l : s.t.toNat = 79
  · rw [if_pos (last.2 l), if_pos l]
  · rw [if_neg (mt last.1 l), if_neg l]

theorem execUopRound_past {s : State} (h : 80 ≤ s.t.toNat) : execUopRound s = .fault .roundIndexOutOfRange :=
  dif_neg (Nat.not_lt.2 h)

theorem execUopAccum_last {s : State} (h : s.blkidx + 1 = s.nblk) :
    execUopAccum s = .next s.accumulated.complete := if_pos h

theorem execUopAccum_more {s : State} (h : s.blkidx + 1 ≠ s.nblk) :
    execUopAccum s = .next (s.accumulated.goto 3#4) := if_neg h

/-! ### Inversion -/

/-- Everything a step that goes on can do, with the conditions under which it does it. -/
inductive StepCase (s t : State) : Prop where
  | reset (event : s.nextEvent = .reset) (result : t = s.popped.resetEvent)
  | read (addr : Word) (event : s.nextEvent = .bus (.read addr))
      (result : t = s.popped.reply addr (hostReadValue addr s.popped))
  | ignored (addr v : Word) (event : s.nextEvent = .bus (.write addr v)) (result : t = s.popped)
  | command (addr v : Word) (event : s.nextEvent = .bus (.write addr v)) (idle : s.phase = 0#4)
      (cmd : wordAddr addr = 0x004) (chain : Bool) (first : BitVec 4)
      (word : v.toNat = 1 ∧ chain = false ∧ first = 1#4 ∨ v.toNat = 2 ∧ chain = false ∧ first = 2#4 ∨
        v.toNat = 3 ∧ chain = true ∧ first = 1#4)
      (result : t = s.popped.accept chain first)
  | mlen (addr v : Word) (event : s.nextEvent = .bus (.write addr v)) (idle : s.phase = 0#4)
      (reg : wordAddr addr = 0x00C) (legal : v.toNat + 9 ≤ s.bufCap) (result : t = { s.popped with mlen := v })
  | plen (addr v : Word) (event : s.nextEvent = .bus (.write addr v)) (idle : s.phase = 0#4)
      (reg : wordAddr addr = 0x010) (legal : v.toNat ≤ s.bufCap) (result : t = { s.popped with plen := v })
  | buf (addr v : Word) (event : s.nextEvent = .bus (.write addr v)) (idle : s.phase = 0#4)
      (low : 2 ^ 31 ≤ wordAddr addr) (high : wordAddr addr < 2 ^ 31 + s.bufCap)
      (result : t = s.popped.storeBytes (wordAddr addr - 2 ^ 31) (be32Bytes v))
  | engineIdle (event : s.nextEvent = .engine) (phase : s.phase = 0#4) (result : t = s.popped)
  | padChained (event : s.nextEvent = .engine) (phase : s.phase = 1#4) (fits : paddedLength s.mlen.toNat ≤ s.bufCap)
      (chain : s.chain = true) (result : t = s.popped.padded.unchain)
  | padAlone (event : s.nextEvent = .engine) (phase : s.phase = 1#4) (fits : paddedLength s.mlen.toNat ≤ s.bufCap)
      (chain : s.chain = false) (result : t = s.popped.padded.complete)
  | checkError (event : s.nextEvent = .engine) (phase : s.phase = 2#4) (misaligned : s.plen.toNat % 64 ≠ 0)
      (result : t = s.popped.raiseAlignmentError)
  | checkEmpty (event : s.nextEvent = .engine) (phase : s.phase = 2#4) (empty : s.plen.toNat = 0)
      (result : t = s.popped.loadIv.complete)
  | checkBlocks (event : s.nextEvent = .engine) (phase : s.phase = 2#4) (aligned : s.plen.toNat % 64 = 0)
      (nonempty : s.plen.toNat ≠ 0) (result : t = s.popped.loadIv.goto 3#4)
  | sched (event : s.nextEvent = .engine) (phase : s.phase = 3#4) (fits : 64 * s.blkidx.toNat + 64 ≤ s.bufCap)
      (result : t = s.popped.scheduled.drawn.goto 4#4)
  | round (event : s.nextEvent = .engine) (phase : s.phase = 4#4) (index : s.t.toNat < 80)
      (result : t = (s.popped.rounded s.w[s.t.toNat]).goto (if s.t.toNat = 79 then 5#4 else 4#4))
  | accumLast (event : s.nextEvent = .engine) (phase : s.phase = 5#4) (last : s.blkidx + 1 = s.nblk)
      (result : t = s.popped.accumulated.complete)
  | accumMore (event : s.nextEvent = .engine) (phase : s.phase = 5#4) (more : s.blkidx + 1 ≠ s.nblk)
      (result : t = s.popped.accumulated.goto 3#4)

/-- The cases of a host write that goes on. -/
theorem hostWrite_cases {s t : State} {addr v : Word} (event : s.nextEvent = .bus (.write addr v))
    (h : hostWrite exec addr v s.popped = .next t) : StepCase s t := by
  by_cases idle : s.phase = 0#4
  · rw [hostWrite_idle (by simpa using idle), commandAccept_idle (by simpa using idle)] at h
    simp only [State.writeMlen, State.writePlen] at h
    split_ifs at h with c w1 w2 w3 m ml p pl b <;> obtain rfl := by simpa using h.symm
    · exact .command addr v event idle c false 1#4 (.inl ⟨w1, rfl, rfl⟩) rfl
    · exact .command addr v event idle c false 2#4 (.inr (.inl ⟨w2, rfl, rfl⟩)) rfl
    · exact .command addr v event idle c true 1#4 (.inr (.inr ⟨w3, rfl, rfl⟩)) rfl
    · exact .ignored addr v event rfl
    · exact .mlen addr v event idle m ml rfl
    · exact .ignored addr v event rfl
    · exact .plen addr v event idle p pl rfl
    · exact .ignored addr v event rfl
    · exact .buf addr v event idle b.1 b.2 rfl
    · exact .ignored addr v event rfl
  · rw [hostWrite_busy (by simpa using idle)] at h
    exact .ignored addr v event (by simpa using h.symm)

/-- The cases of an engine step that goes on. -/
theorem engineStep_cases {s t : State} (event : s.nextEvent = .engine)
    (h : engineStep exec s.popped = .next t) : StepCase s t := by
  rcases phase_cases s.phase with p | p | p | p | p | p | p
  · rw [engineStep_idle (by exact p)] at h
    exact .engineIdle event p (Host.Outcome.next.inj h).symm
  · rw [engineStep_pad (by exact p), exec] at h
    rcases Nat.lt_or_ge s.bufCap (paddedLength s.mlen.toNat) with f | f
    · rw [execUopPad_overrun (by exact f)] at h; cases h
    · rw [execUopPad_fits (by exact f)] at h
      obtain rfl := Host.Outcome.next.inj h
      by_cases c : s.chain = true
      · exact .padChained event p f c (if_pos c)
      · exact .padAlone event p f (by simpa using c) (if_neg c)
  · rw [engineStep_check (by exact p), exec] at h
    by_cases m : s.plen.toNat % 64 = 0
    · by_cases e : s.plen.toNat = 0
      · rw [execUopCheck_empty (by exact e)] at h
        exact .checkEmpty event p e (Host.Outcome.next.inj h).symm
      · rw [execUopCheck_blocks (by exact m) (by exact e)] at h
        exact .checkBlocks event p m e (Host.Outcome.next.inj h).symm
    · rw [execUopCheck_misaligned (by exact m)] at h
      exact .checkError event p m (Host.Outcome.next.inj h).symm
  · rw [engineStep_sched (by exact p), exec] at h
    rcases Nat.lt_or_ge s.bufCap (64 * s.blkidx.toNat + 64) with f | f
    · rw [execUopSched_overrun (by exact f)] at h; cases h
    · rw [execUopSched_fits (by exact f)] at h
      exact .sched event p f (Host.Outcome.next.inj h).symm
  · rw [engineStep_round (by exact p), exec] at h
    rcases Nat.lt_or_ge s.t.toNat 80 with i | i
    · rw [execUopRound_next (by exact i)] at h
      exact .round event p i (Host.Outcome.next.inj h).symm
    · rw [execUopRound_past (by exact i)] at h; cases h
  · rw [engineStep_accum (by exact p), exec] at h
    by_cases l : s.blkidx + 1 = s.nblk
    · rw [execUopAccum_last (by exact l)] at h
      exact .accumLast event p l (Host.Outcome.next.inj h).symm
    · rw [execUopAccum_more (by exact l)] at h
      exact .accumMore event p l (Host.Outcome.next.inj h).symm
  · rw [engineStep_reserved (by exact p)] at h; cases h

/-- The inversion of a step: if it answers a next state, then one of the cases holds. -/
theorem step_cases {s t : State} (h : step s = .next t) : StepCase s t := by
  match e : s.nextEvent with
  | .reset => rw [step_reset e] at h; exact .reset e (by simpa using h.symm)
  | .bus (.read addr) =>
    rw [step_read e, hostRead] at h
    split_ifs at h
    exact .read addr e (by simpa using h.symm)
  | .bus (.write addr v) => rw [step_write e] at h; exact hostWrite_cases e h
  | .engine => rw [step_engine e] at h; exact engineStep_cases e h

end Sys2Proof.Machine
end

