-- ==== Sys2Proof/Laws/HostAccess.lean ====
section
/-!
SUPPORT. The value of a host read, by the word address: a register, a word of BUF, or 0; and STATUS as a number.
-/
namespace Sys2Proof.Machine

/-- Every register lies below 0x054 (10_state.md R20). -/
theorem Reg.offset_lt (r : Reg) : r.offset.toNat < 0x54 := by cases r <;> decide

/-- No register at an address that is no register's offset. -/
theorem Reg.ofAddr_eq_none {addr : Word} (h : ∀ r : Reg, wordAddr addr ≠ r.offset.toNat) :
    Reg.ofAddr (alignWord addr) = none := by
  cases e : Reg.ofAddr (alignWord addr) with
  | none => rfl
  | some r => exact absurd ((alignWord_eq_iff addr _).1 (Reg.ofAddr_eq_some e)) (h r)

/-- A read at a register's offset. -/
theorem hostReadValue_reg (r : Reg) {addr : Word} (h : wordAddr addr = r.offset.toNat) (s : State) :
    hostReadValue addr s = r.value s := by
  have : alignWord addr = r.offset := (alignWord_eq_iff addr _).2 h
  rw [hostReadValue, this, Reg.ofAddr_offset]

theorem bufIndex_alignWord (addr : Word) : bufIndex (alignWord addr) = wordAddr addr - 2 ^ 31 := by
  rw [bufIndex, alignWord_toNat]; rfl

/-- When an address reaches BUF, by its word address. -/
theorem State.inBuf_alignWord (s : State) (addr : Word) :
    s.inBuf (alignWord addr) = true ↔ 2 ^ 31 ≤ wordAddr addr ∧ wordAddr addr < 2 ^ 31 + s.bufCap := by
  rw [State.inBuf_iff, alignWord_toNat]; rfl

/-- A read in BUF. -/
theorem hostReadValue_buf {addr : Word} {s : State} (l : 2 ^ 31 ≤ wordAddr addr)
    (h : wordAddr addr < 2 ^ 31 + s.bufCap) : hostReadValue addr s = s.bufWord (wordAddr addr - 2 ^ 31) := by
  rw [hostReadValue, Reg.ofAddr_eq_none fun r => by have := r.offset_lt; omega]
  simp only [(s.inBuf_alignWord addr).2 ⟨l, h⟩, if_true, bufIndex_alignWord]

/-- A read where there is neither a register nor BUF. -/
theorem hostReadValue_none {addr : Word} {s : State} (hr : ∀ r : Reg, wordAddr addr ≠ r.offset.toNat)
    (hb : wordAddr addr < 2 ^ 31 ∨ 2 ^ 31 + s.bufCap ≤ wordAddr addr) : hostReadValue addr s = 0 := by
  rw [hostReadValue, Reg.ofAddr_eq_none hr]
  exact if_neg (mt (s.inBuf_alignWord addr).1 (by omega))

/-- A byte that is specified is what BUF reads there. -/
theorem State.bufByte_of_some {s : State} {i : Nat} {x : Byte} (h : s.buf.byteAt? i = some x) : s.bufByte i = x := by
  rw [State.bufByte, h]; rfl

/-- A word read from BUF is the big-endian sum of four bytes, each the specified byte where there is one
(20_memory.md R62, R76). -/
theorem State.bufWord_bytes (s : State) (i : Nat) :
    ∃ b : Nat → Byte,
      (s.bufWord i).toNat = (b 0).toNat * 2 ^ 24 + (b 1).toNat * 2 ^ 16 + (b 2).toNat * 2 ^ 8 + (b 3).toNat ∧
      ∀ k x, s.buf.byteAt? (i + k) = some x → b k = x :=
  ⟨fun k => s.bufByte (i + k), by rw [State.bufWord, be32_toNat]; simp only [Nat.add_zero],
    fun _ _ h => State.bufByte_of_some h⟩

/-- STATUS as the sum of its fields (10_state.md R24). -/
theorem State.statusWord_toNat (s : State) :
    s.statusWord.toNat = (if s.phase = 0#4 then 0 else 1) + 2 * s.done.toNat + 4 * s.err.toNat + 16 * s.phase.toNat +
      256 * s.errcode.toNat + 4096 * s.chain.toNat := by
  have join {n m : Nat} (x : BitVec n) (b : BitVec m) : (x ++ b).toNat = x.toNat * 2 ^ m + b.toNat := by
    rw [BitVec.toNat_append, ← Nat.shiftLeft_add_eq_or_of_lt b.isLt, Nat.shiftLeft_eq]
  have busy : s.busy.toNat = if s.phase = 0#4 then 0 else 1 := by
    unfold State.busy; by_cases h : s.phase = 0#4 <;> simp [h]
  simp only [State.statusWord, join, BitVec.toNat_ofBool, busy]
  simp
  omega

/-- When a host read goes on: always, unless it meets a reserved ERRCODE in STATUS (log 6). -/
theorem hostRead_next {addr : Word} {s : State} (h : wordAddr addr = 0x008 → s.errcode.toNat ≤ 1) :
    hostRead addr s = .next (s.reply addr (hostReadValue addr s)) := by
  refine if_neg fun ⟨a, r⟩ => ?_
  have := h ((alignWord_eq_iff addr _).1 a)
  simp only [State.errcodeReserved, decide_eq_true_eq, BitVec.lt_def] at r
  exact absurd r (Nat.not_lt.2 this)

end Sys2Proof.Machine
end

