-- ==== Sys2Proof/Laws/PerInstr.lean ====
section
/-!
SUPPORT. What is said of every instruction as syntax: it is well formed, its code decodes to it, and the code is a command
word or a PHASE that the checks of WellFormed.lean accept (30_encoding.md R91, R95).
-/
namespace Sys2Proof.Laws.Encoding

/-- A code is one that the checks accept. -/
def accepted : Code → Bool
  | .cmd v => WellFormed.commandWord v
  | .phase p => WellFormed.microOpCode p

/-- The instruction is well formed, and its code is accepted and decodes to it. -/
def Statement (i : Instr) : Prop :=
  i.wellFormed = true ∧ accepted (encode i) = true ∧ decode (encode i) = .ok i

theorem nop : Statement .nop := ⟨rfl, rfl, rfl⟩
theorem pad : Statement .pad := ⟨rfl, rfl, rfl⟩
theorem compute : Statement .compute := ⟨rfl, rfl, rfl⟩
theorem hash : Statement .hash := ⟨rfl, rfl, rfl⟩
theorem uopPad : Statement .uopPad := ⟨rfl, rfl, rfl⟩
theorem uopCheck : Statement .uopCheck := ⟨rfl, rfl, rfl⟩
theorem uopSched : Statement .uopSched := ⟨rfl, rfl, rfl⟩
theorem uopRound : Statement .uopRound := ⟨rfl, rfl, rfl⟩
theorem uopAccum : Statement .uopAccum := ⟨rfl, rfl, rfl⟩

end Sys2Proof.Laws.Encoding
end

