-- ==== Sys2Proof/Laws/Run.lean ====
section
/-!
SUPPORT. Runs of several steps: one step more, two runs in a row, and a property that every step keeps. The numbers of steps
are related by an equation that is a premise, so that no proof asks for two runs to be unfolded side by side.
-/
namespace Sys2Proof.Machine

theorem run_zero (s : State) : run 0 s = .next s := rfl

/-- A run unfolded once. -/
theorem run_succ (k : Nat) (s : State) :
    run (k + 1) s = match step s with
      | .next t => run k t
      | .fault r => .fault r
      | .refused r => .refused r := rfl

/-- A first step, then the rest. -/
theorem run_step {k n : Nat} {s t : State} (h : step s = .next t) (hn : n = k + 1) :
    run n s = run k t := by
  subst hn
  rw [run_succ, h]

/-- A run that goes on, unfolded at its first step. -/
theorem run_succ_eq_next {k : Nat} {s t : State} (h : run (k + 1) s = .next t) :
    ∃ u, step s = .next u ∧ run k u = .next t := by
  match e : step s with
  | .next u => exact ⟨u, rfl, (run_step e rfl).symm.trans h⟩
  | .fault f => rw [run_succ, e] at h; cases h
  | .refused r => rw [run_succ, e] at h; cases h

/-- A run, then a run from where it ends. -/
theorem run_add {a b n : Nat} {s t : State} (h : run a s = .next t) (hn : n = a + b) :
    run n s = run b t := by
  subst hn
  induction a generalizing s with
  | zero => rw [run_zero] at h; cases h; rw [Nat.zero_add]
  | succ a ih =>
    obtain ⟨u, hu, hr⟩ := run_succ_eq_next h
    rw [run_step (k := a + b) hu (by omega), ih hr]

/-- A property that every step keeps holds at the end of every run. -/
theorem run_keeps {P : State → Prop} (keep : ∀ s t, P s → step s = .next t → P t) {k : Nat} {s t : State}
    (hs : P s) (h : run k s = .next t) : P t := by
  induction k generalizing s with
  | zero => rw [run_zero] at h; cases h; exact hs
  | succ k ih =>
    obtain ⟨u, hu, hr⟩ := run_succ_eq_next h
    exact ih (keep s u hs hu) hr

/-- With no input to come, nothing is taken off the agenda. -/
theorem State.popped_of_no_agenda {s : State} (h : s.agenda = []) : s.popped = s := by
  obtain ⟨⟩ := s; cases h; rfl

/-- With no input to come, a step is the engine's (log 1). -/
theorem step_of_no_agenda {s : State} (h : s.agenda = []) : step s = engineStep exec s := by
  rw [step_engine (by rw [State.nextEvent, h]; rfl), State.popped_of_no_agenda h]

end Sys2Proof.Machine
end

