-- ==== Sys2Proof/Laws/Sha1.lean ====
section
/-!
SUPPORT. The pure functions: the padded length, the padding bytes, the schedule as a list, the rounds one at a time.
-/
namespace Sys2Proof.Machine

/-! ### Padding -/

theorem fillerCount_lt (len : Nat) : fillerCount len < 64 := Nat.mod_lt _ (by decide)

/-- The padded length is a multiple of the block size (40_padder.md R114). -/
theorem paddedLength_mod (len : Nat) : paddedLength len % 64 = 0 := by
  unfold paddedLength fillerCount; omega

/-- The padded length is the least multiple of 64 that leaves room for nine bytes, so it fits where the message does
(40_padder.md R116). -/
theorem paddedLength_le {len cap : Nat} (h : len + 9 ≤ cap) (hc : cap % 64 = 0) : paddedLength len ≤ cap := by
  unfold paddedLength fillerCount; omega

theorem le_paddedLength (len : Nat) : len + 9 ≤ paddedLength len := by unfold paddedLength; omega

theorem padTail_cons (len : Nat) :
    padTail len = 0x80#8 :: (List.replicate (fillerCount len) 0x00#8 ++ be64Bytes (bitLength len)) := rfl

/-- The padding ends where the padded length says. -/
theorem padTail_length (len : Nat) : len + (padTail len).length = paddedLength len := by
  simp [padTail_cons, be64Bytes, paddedLength]; omega

/-- The bit length as a number, below 2^64 for every length the hardware admits (40_padder.md R116). -/
theorem bitLength_toNat {len : Nat} (h : 8 * len < 2 ^ 64) : (bitLength len).toNat = 8 * len := by
  simp only [bitLength, BitVec.toNat_mul, BitVec.toNat_ofNat]
  omega

/-- The marker. -/
theorem padTail_marker (len : Nat) : (padTail len)[0]? = some 0x80#8 := rfl

/-- The filler. -/
theorem padTail_filler {len k : Nat} (hk : k < fillerCount len) : (padTail len)[1 + k]? = some 0x00#8 := by
  rw [padTail_cons, Nat.add_comm, List.getElem?_cons_succ, List.getElem?_append_left (by simpa using hk)]
  simp [hk]

/-- The trailer. -/
theorem padTail_trailer (len k : Nat) :
    (padTail len)[1 + fillerCount len + k]? = (be64Bytes (bitLength len))[k]? := by
  rw [padTail_cons, show 1 + fillerCount len + k = fillerCount len + k + 1 by omega, List.getElem?_cons_succ,
    List.getElem?_append_right (by simp)]
  simp

/-! ### The schedule -/

/-- Under the new words the old ones are kept. -/
theorem extendSchedule_drop (n : Nat) (ws : List Word) : (extendSchedule n ws).drop n = ws := by
  induction n generalizing ws with
  | zero => rfl
  | succ n ih =>
    rw [extendSchedule, ← List.drop_drop, ih]
    rfl

/-- Each new word is the recurrence's value on the words before it (41_schedule.md R131). -/
theorem extendSchedule_getElem? {n i : Nat} (hi : i < n) (ws : List Word) :
    (extendSchedule n ws)[i]? = some (nextScheduleWord ((extendSchedule n ws).drop (i + 1))) := by
  induction n generalizing ws with
  | zero => omega
  | succ n ih =>
    rw [extendSchedule]
    rcases Nat.lt_succ_iff_lt_or_eq.1 hi with h | rfl
    · exact ih h _
    · rw [← List.head?_drop, ← List.tail_drop, extendSchedule_drop]
      rfl

/-- W[t] in the list of the schedule, newest first. -/
theorem schedule_getElem (word : Nat → Word) {t : Nat} (ht : t < 80) :
    (schedule word)[t] = (extendSchedule 64 (blockWords word))[79 - t]'(by
      rw [extendSchedule_length, blockWords_length]; omega) := by
  simp only [schedule, Vector.getElem_mk, List.getElem_toArray, List.getElem_reverse, extendSchedule_length,
    blockWords_length]

/-- The schedule depends on the block's words alone; without unfolding the 64 extensions. -/
theorem schedule_congr {f g : Nat → Word} (h : blockWords f = blockWords g) : schedule f = schedule g := by
  apply Vector.toList_inj.1
  have toList (f : Nat → Word) : (schedule f).toList = (extendSchedule 64 (blockWords f)).reverse := rfl
  rw [toList, toList, h]

/-! ### The rounds -/

/-- The rounds of a list and one more round. -/
theorem runRounds_append (t : Nat) (ws : List Word) (w : Word) (x : Working) :
    runRounds t (ws ++ [w]) x = roundStep (t + ws.length) w (runRounds t ws x) := by
  induction ws generalizing t x with
  | nil => rfl
  | cons v ws ih => rw [List.cons_append, runRounds, ih, runRounds, List.length_cons]; congr 1; omega

/-- The first t rounds and round t, of a list that long. -/
theorem runRounds_take_succ (ws : List Word) (x : Working) {t : Nat} (ht : t < ws.length) :
    runRounds 0 (ws.take (t + 1)) x = roundStep t ws[t] (runRounds 0 (ws.take t) x) := by
  rw [List.take_succ_eq_append_getElem ht, runRounds_append, Nat.zero_add, List.length_take_of_le (Nat.le_of_lt ht)]

end Sys2Proof.Machine
end

