-- ==== Sys2Proof/Tests/Slice0.lean ====
section
/-!
SUPPORT. The model's own tests. Expected values come from the spec: its tables, its worked vectors (95_test_vectors.md, V-x) and
values worked out by hand from the rules. After them, one witness or more for every obligation that has hypotheses.
-/
namespace Sys2Proof.Tests

open Sys2Proof Sys2Proof.Machine

-- One theorem after another: many kernel evaluations at once would ask for more threads than the memory limit allows.
set_option Elab.async false

/-! ### Helpers -/

/-- The next state of an outcome, if there is one. -/
def next? : Result → Option State
  | .next t => some t
  | .fault _ => none
  | .refused _ => none

/-- The fault of an outcome, if there is one. -/
def fault? : Result → Option Fault
  | .fault f => some f
  | .next _ => none
  | .refused _ => none

/-- A small core right after reset. -/
def core128 : State := State.resetAt 128

/-- The core with a message in BUF and its length in MLEN. -/
def loaded (m : List Byte) : State :=
  { core128 with buf := Memory.setBytes [] 0 m, mlen := BitVec.ofNat 32 m.length }

/-- The bytes of "abc". -/
def abc : List Byte := [0x61, 0x62, 0x63]

/-- The core with one input. -/
def input (e : Event) (s : State) : State := { s with agenda := [e] }

/-- The value a read of the address returns. -/
def readBack (addr : Word) (s : State) : Option Word :=
  (next? (step (input (.bus (.read addr)) s))).map fun t => t.replies.headD 0

/-- The state after a write. -/
def write (addr v : Word) (s : State) : Option State := next? (step (input (.bus (.write addr v)) s))

/-- Bytes from, from + 1, ... of a BUF. -/
def bytes (m : Memory) (from' count : Nat) : List (Option Byte) :=
  (List.range count).map fun k => m.byteAt? (from' + k)

/-! ### WellFormed: each check refuses an ill-formed term -/

theorem test_wellFormed_refuses_rsv : WellFormed.commandWord 0x00000010#32 = false := by decide
theorem test_wellFormed_refuses_op : WellFormed.commandWord 0x00000007#32 = false := by decide
theorem test_wellFormed_accepts_hash : WellFormed.commandWord 0x00000003#32 = true := by decide
theorem test_wellFormed_refuses_idle_phase : WellFormed.microOpCode 0#4 = false := by decide
theorem test_wellFormed_refuses_reserved_phase : WellFormed.microOpCode 6#4 = false := by decide
theorem test_wellFormed_refuses_unaligned_capacity : WellFormed.capacity 100 = false := by decide
theorem test_wellFormed_refuses_no_capacity : WellFormed.capacity 0 = false := by decide
theorem test_wellFormed_refuses_large_capacity : WellFormed.capacity (2 ^ 31 + 64) = false := by decide
theorem test_wellFormed_refuses_long_message : WellFormed.loadMessage 64 (List.replicate 56 0) = false := by decide
theorem test_wellFormed_accepts_longest_message : WellFormed.loadMessage 64 (List.replicate 55 0) = true := by decide

/-! ### Decode: words written out from R90, R91 and R95 (30_encoding.md) -/

theorem test_decode_nop : decode (.cmd 0b00000000000000000000000000000000#32) = .ok .nop := rfl
theorem test_decode_pad : decode (.cmd 0b00000000000000000000000000000001#32) = .ok .pad := rfl
theorem test_decode_compute : decode (.cmd 0b00000000000000000000000000000010#32) = .ok .compute := rfl
theorem test_decode_hash : decode (.cmd 0b00000000000000000000000000000011#32) = .ok .hash := rfl
theorem test_decode_uopPad : decode (.phase 0b0001#4) = .ok .uopPad := rfl
theorem test_decode_uopCheck : decode (.phase 0b0010#4) = .ok .uopCheck := rfl
theorem test_decode_uopSched : decode (.phase 0b0011#4) = .ok .uopSched := rfl
theorem test_decode_uopRound : decode (.phase 0b0100#4) = .ok .uopRound := rfl
theorem test_decode_uopAccum : decode (.phase 0b0101#4) = .ok .uopAccum := rfl

/-- Bit 4 alone is RSV: the word is reserved, no neighbour of HASH (30_encoding.md R92). -/
theorem test_decode_reserved_rsv : decode (.cmd 0b00000000000000000000000000010011#32) = .error .reservedCommand := rfl
theorem test_decode_reserved_op : decode (.cmd 0b00000000000000000000000000000100#32) = .error .reservedCommand := rfl
theorem test_decode_reserved_phase : decode (.phase 0b0110#4) = .error .reservedPhase := rfl
theorem test_decodeTableWord_hash : decodeTableWord 32 3 = some .hash := rfl
theorem test_decodeTableWord_uopRound : decodeTableWord 8 4 = some .uopRound := rfl

/-! ### Commands -/

/-- Program P5: a NOP on STATUS = 0x00000002 leaves it. -/
theorem test_nop_keeps_done :
    (write 0x004 0x00000000 { core128 with done := true }).map (·.statusWord) = some 0x00000002#32 := by decide +kernel

/-- R180: STATUS after a PAD is accepted over a stale error: BUSY and PHASE = 1 (bits 0 and 4). -/
theorem test_pad_accepted :
    (write 0x004 0x00000001 { core128 with err := true, errcode := 1 }).map (·.statusWord) = some 0x00000011#32 := by
  decide +kernel

/-- R180: STATUS after a COMPUTE is accepted: BUSY and PHASE = 2. -/
theorem test_compute_accepted :
    (write 0x004 0x00000002 { core128 with done := true }).map (·.statusWord) = some 0x00000021#32 := by decide +kernel

/-- V-M12: STATUS after a HASH is accepted: BUSY, PHASE = PAD, CHAIN. -/
theorem test_hash_accepted : (write 0x004 0x00000003 core128).map (·.statusWord) = some 0x00001011#32 := by decide +kernel

/-- V-M15: a reserved word leaves a stale DONE. -/
theorem test_reserved_command_word :
    (write 0x004 0x00000010 { core128 with done := true }).map (·.statusWord) = some 0x00000002#32 := by decide +kernel

/-! ### Micro-operations -/

/-- V-P14 with V-P15: the padded block of "abc", a stray byte behind the message replaced. -/
theorem test_uopPad_abc :
    (next? (exec .uopPad { loaded (abc ++ [0xFF]) with mlen := 3, phase := 1 })).map
        (fun t => (bytes t.buf 0 5, bytes t.buf 54 11, t.plen, t.statusWord)) =
      some ([some 0x61, some 0x62, some 0x63, some 0x80, some 0x00],
        [some 0, some 0, some 0, some 0, some 0, some 0, some 0, some 0, some 0, some 0x18, none],
        0x00000040#32, 0x00000002#32) := by decide +kernel

/-- V-P6: 56 bytes need 63 filler bytes; the trailer's last bytes are 01 C0. -/
theorem test_uopPad_56 :
    (next? (exec .uopPad { core128 with mlen := 56, phase := 1, chain := true })).map
        (fun t => (t.buf.byteAt? 56, t.buf.byteAt? 119, bytes t.buf 125 3, t.plen, t.statusWord)) =
      some (some 0x80, some 0x00, [some 0x00, some 0x01, some 0xC0], 0x00000080#32, 0x00000021#32) := by decide +kernel

/-- V-C4: PLEN = 65 is an AlignmentError, and H and NBLK keep their values. -/
theorem test_uopCheck_misaligned :
    (next? (exec .uopCheck { core128 with plen := 65, phase := 2, nblk := 1 })).map (fun t => (t.statusWord, t.nblk, t.h.h0)) =
      some (0x00000104#32, 0x00000001#32, 0x67452301#32) := by decide +kernel

/-- R118, example: PLEN = 128 gives two blocks, H = IV and PHASE = SCHED. -/
theorem test_uopCheck_two_blocks :
    (next? (exec .uopCheck { core128 with plen := 128, phase := 2, h := ⟨1, 2, 3, 4, 5⟩ })).map
        (fun t => (t.statusWord, t.nblk, t.blkidx, t.h.h4)) =
      some (0x00000031#32, 0x00000002#32, 0x00000000#32, 0xC3D2E1F0#32) := by decide +kernel

/-- V-S3: the only set bit is the lowest of W[0]. -/
theorem test_uopSched_one_bit :
    (next? (exec .uopSched { loaded (0 :: 0 :: 0 :: 1 :: List.replicate 60 0) with phase := 3, t := 80 })).map
        (fun t => (t.w[0], t.w[16], t.w[19], t.w[79], t.t, t.work.a)) =
      some (0x00000001#32, 0x00000002#32, 0x00000004#32, 0x00400100#32, 0#7, 0x67452301#32) := by decide +kernel

/-- V-S6: block bytes 00 to 3F; the second block of the buffer, so that BLKIDX counts. -/
theorem test_uopSched_second_block :
    (next? (exec .uopSched { loaded (List.replicate 64 0xFF ++ (List.range 64).map (BitVec.ofNat 8)) with
        phase := 3, blkidx := 1 })).map (fun t => (t.w[1], t.w[15], t.w[16], t.w[79])) =
      some (0x04050607#32, 0x3C3D3E3F#32, 0x38383838#32, 0xC47818A4#32) := by decide +kernel

/-- V-R1, t = 0: the first round of "abc". -/
theorem test_uopRound_abc :
    (next? (exec .uopRound { core128 with
        phase := 4, work := ⟨0x67452301, 0xEFCDAB89, 0x98BADCFE, 0x10325476, 0xC3D2E1F0⟩
        w := Vector.replicate 80 0x61626380 })).map (fun t => (t.work, t.t, t.phase)) =
      some (⟨0x0116FC33, 0x67452301, 0x7BF36AE2, 0x98BADCFE, 0x10325476⟩, 1#7, 4#4) := by decide +kernel

/-- V-R6, t = 79: the last round goes on to ACCUM. -/
theorem test_uopRound_last :
    (next? (exec .uopRound { core128 with phase := 4, t := 79, work := ⟨0x80000000, 1, 0, 0, 0⟩ })).map
        (fun t => (t.work, t.t, t.phase)) =
      some (⟨0xCA62C1E7, 0x80000000, 0x40000000, 0, 0⟩, 80#7, 5#4) := by decide +kernel

/-- V-A1: the digest of "abc" from the registers after its 80 rounds. -/
theorem test_uopAccum_abc :
    (next? (exec .uopAccum { core128 with
        phase := 5, t := 80, nblk := 1, work := ⟨0x42541B35, 0x5738D5E1, 0x21834873, 0x681E6DF6, 0xD8FDF6AD⟩ })).map
        (fun t => (t.h, t.blkidx, t.statusWord)) =
      some (⟨0xA9993E36, 0x4706816A, 0xBA3E2571, 0x7850C26C, 0x9CD0D89D⟩, 0x00000001#32, 0x00000002#32) := by
  decide +kernel

/-- V-A2: each addition wraps with no carry into its neighbour; a block remains. -/
theorem test_uopAccum_wraps :
    (next? (exec .uopAccum { core128 with
        phase := 5, t := 80, nblk := 2, h := ⟨0xFFFFFFFF, 0x80000000, 0xC3D2E1F0, 0, 0⟩
        work := ⟨1, 0x80000000, 0x3C2D1E10, 0, 0⟩ })).map (fun t => (t.h, t.statusWord)) =
      some (⟨0, 0, 0, 0, 0⟩, 0x00000031#32) := by decide +kernel

/-! ### Pure functions -/

/-- V-F1, V-F3, V-F5, V-F7: the function of each range. -/
theorem test_roundF :
    [0, 20, 40, 60].map (fun t => roundF t 0xFFFF0000 0xFF00FF00 0xF0F0F0F0) =
      [0xFF00F0F0#32, 0xF00F0FF0#32, 0xFFF0F000#32, 0xF00F0FF0#32] := by decide +kernel

/-- V-F: the constants on both sides of each boundary. -/
theorem test_roundK :
    [0, 19, 20, 39, 40, 59, 60, 79].map roundK =
      [0x5A827999#32, 0x5A827999#32, 0x6ED9EBA1#32, 0x6ED9EBA1#32, 0x8F1BBCDC#32, 0x8F1BBCDC#32, 0xCA62C1D6#32,
        0xCA62C1D6#32] := by decide +kernel

/-- V-T1, V-T3, V-T6. -/
theorem test_rotl32 :
    (rotl32 0x80000000 1, rotl32 0x12345678 5, rotl32 0x00000003 30) = (0x00000001#32, 0x468ACF02#32, 0xC0000000#32) := by
  decide +kernel

/-- L1-1: the source's known answer for "hello". -/
theorem test_sha1_hello :
    sha1 (asciiBytes "hello") = ⟨0xAAF4C61D, 0xDCC5E8A2, 0xDABEDE0F, 0x3B482CD9, 0xAEA9434D⟩ := by decide +kernel

/-- V-H5: a message of two blocks. -/
theorem test_sha1_two_blocks :
    sha1 (asciiBytes "abcdbcdecdefdefgefghfghighijhijkijkljklmklmnlmnomnopnopq") =
      ⟨0x84983E44, 0x1C3BD26E, 0xBAAE4AA1, 0xF95129E5, 0xE54670F1⟩ := by decide +kernel

/-- V-A4: leading zeros of a word are kept. -/
theorem test_hexDigest_leading_zeros :
    hexDigest ⟨0x16B06BD9, 0xB738835E, 0x2D134FE8, 0xD596E9AB, 0x0086A985⟩ =
      "16b06bd9b738835e2d134fe8d596e9ab0086a985".toList := by decide +kernel

/-! ### Host accesses -/

/-- V-M1, V-M3, V-M4, V-M8: constants, reserved and unmapped addresses; CAP of this core is 128. -/
theorem test_reads_after_reset :
    [0x000, 0x008, 0x020, 0x030, 0x034, 0x038, 0x004, 0x100, 0x80000080].map (fun a => readBack a core128) =
      [some 0x53484131#32, some 0, some 0x67452301#32, some 0xC3D2E1F0#32, some 128#32, some 0, some 0, some 0, some 0] := by
  decide +kernel

/-- V-M5, V-M6: big-endian lanes; a write to BUF+6 lands at BUF+4. -/
theorem test_write_buf :
    ((write 0x80000006 0xAABBCCDD core128).map fun t => bytes t.buf 3 6) =
      some [none, some 0xAA, some 0xBB, some 0xCC, some 0xDD, none] := by decide +kernel

/-- V-M7: a read of BUF+5 returns the word at BUF+4. -/
theorem test_read_buf : readBack 0x80000005 (loaded [0, 0, 0, 0, 0xAA, 0xBB, 0xCC, 0xDD]) = some 0xAABBCCDD#32 := by
  decide +kernel

/-- V-C9 and V-C10 at BUF_CAP = 128: MSG_CAP is 119. -/
theorem test_length_limits :
    ((write 0x00C 119 core128).map (·.mlen), (write 0x00C 120 core128).map (·.mlen),
      (write 0x010 128 core128).map (·.plen), (write 0x010 129 core128).map (·.plen)) =
      (some 119#32, some 0#32, some 128#32, some 0#32) := by decide +kernel

/-- V-M10, V-M12: writes to read-only registers and writes while busy change nothing. -/
theorem test_ignored_writes :
    (write 0x020 0x12345678 core128, write 0x008 0xFFFFFFFF core128, write 0x00C 3 { core128 with phase := 1 }) =
      (some core128, some core128, some { core128 with phase := 1 }) := by decide +kernel

/-- R31, R24: RCNT shows T in bits 6:0, STATUS every field at its bit. -/
theorem test_rcnt_and_status :
    (readBack 0x01C { core128 with t := 80 }, readBack 0x008 { core128 with err := true, errcode := 1 }) =
      (some 80#32, some 0x00000104#32) := by decide +kernel

/-- R99: LOADMSG "hello", CMD HASH and POLL, as program P6 encodes them. -/
theorem test_pseudo_instructions :
    (loadMsg (asciiBytes "hello"), cmdLine .hash, pollLines 7 1) =
      ([.wr 0x80000000 0x68656C6C, .wr 0x80000004 0x6F000000, .wr 0x0000000C 0x00000005], [.wr 0x00000004 0x00000003],
        [.label 7, .rd 0x00000008 1, .br 1 0 0 7]) := by decide +kernel

/-- R98: CHECK aborts the host on a mismatch. -/
theorem test_check_line_aborts :
    (match (HostRun.mk core128 [.check 1 0x00000002#32] 0 [(1, 0x00000104#32)] false []).hostTurn with
      | .next r => (r.aborted, r.line)
      | _ => (false, 9)) = (true, 0) := by decide +kernel

/-! ### Witnesses: states and operands that meet the hypotheses of the obligations -/

/-- A core about to run a command word. -/
def starting (v : Word) (s : State) : State := input (.bus (.write (Reg.offset .cmd) v)) s

/-- An engine step is next, with this PHASE. -/
def inPhase (p : BitVec 4) (s : State) : State := { s with phase := p }

/-- In the rounds of the one block of an aligned BUF. -/
def compressing (p : BitVec 4) (n : BitVec 7) : State :=
  { core128 with phase := p, plen := 64, nblk := 1, t := n }

theorem witness_Inv_reset : State.reset.Inv := by constructor <;> decide +kernel
theorem witness_Inv_loaded : (loaded abc).Inv := by constructor <;> decide +kernel
theorem witness_Inv_round : (compressing 4 79).Inv := by constructor <;> decide +kernel
theorem witness_Inv_accum : (compressing 5 80).Inv := by constructor <;> decide +kernel
theorem witness_Inv_error : { core128 with err := true, errcode := 1, plen := 65 }.Inv := by constructor <;> decide +kernel

theorem witness_StepRunsTheDecodedInstruction_command :
    let s := starting 3 core128
    s.nextEvent = .bus (.write 0x004 3) ∧ wordAddr 0x004 = 0x004 ∧ s.phase = 0#4 ∧ decode (.cmd 3) = .ok .hash :=
  ⟨rfl, rfl, rfl, rfl⟩
theorem witness_StepRunsTheDecodedInstruction_engine :
    let s := inPhase 4 core128
    s.nextEvent = .engine ∧ decode (.phase s.phase) = .ok .uopRound := ⟨rfl, rfl⟩
theorem witness_FetchWordRunsAsTheNextStep :
    decodeTableWord 32 2 = some .compute ∧ decodeTableWord 8 5 = some .uopAccum := ⟨rfl, rfl⟩
theorem witness_IdleEngineKeepsAllState : core128.phase = 0#4 ∧ core128.nextEvent = .engine := ⟨rfl, rfl⟩
theorem witness_ReservedPhaseStopsTheEngine :
    (6 ≤ (inPhase 6 core128).phase.toNat ∧ (inPhase 6 core128).nextEvent = .engine) ∧
    (6 ≤ (inPhase 15 core128).phase.toNat ∧ (inPhase 15 core128).nextEvent = .engine) := by decide +kernel
theorem witness_StartingCommandsComplete : core128.phase = 0#4 ∧ (inPhase 1 core128).phase ≠ 0#4 := by decide +kernel

/-- Any address of CMD's word, every command, and both a busy and an idle core. -/
theorem witness_CommandAcceptance (v : Word) :
    (input (.bus (.write 0x007 v)) core128).nextEvent = .bus (.write 0x007 v) ∧ wordAddr 0x007 = 0x004 ∧
    (input (.bus (.write 0x007 v)) core128).phase = 0#4 ∧ (input (.bus (.write 0x007 v)) (inPhase 2 core128)).phase ≠ 0#4 :=
  ⟨rfl, rfl, rfl, (by decide : 2#4 ≠ 0#4)⟩
theorem witness_ReservedCommandWordChangesNothing :
    (starting 0x10 core128).nextEvent = .bus (.write 0x004 0x10) ∧
    ((0x10#32).toNat / 16 ≠ 0 ∧ (4#32).toNat % 16 = 4 ∧ (0xF#32).toNat % 16 = 15 ∧ (0xFFFFFFFF#32).toNat / 16 ≠ 0) := by
  decide +kernel

/-- The clauses of HostWrite by word address, at both ends of their ranges, on an idle core of 128 bytes. -/
theorem witness_HostWriteFollowsTheAddressMap :
    (∀ addr v : Word, (input (.bus (.write addr v)) core128).nextEvent = .bus (.write addr v)) ∧
    (input (.bus (.write 0x004 3)) core128).phase = 0#4 ∧ (input (.bus (.write 0x004 3)) (inPhase 1 core128)).phase ≠ 0#4 ∧
    [0x004, 0x007, 0x00C, 0x00F, 0x010, 0x013].map wordAddr = [0x004, 0x004, 0x00C, 0x00C, 0x010, 0x010] ∧
    (∀ w ∈ [0x80000000, 0x80000003, 0x8000007C, 0x8000007F].map wordAddr, 2 ^ 31 ≤ w ∧ w < 2 ^ 31 + core128.bufCap) ∧
    (∀ w ∈ [0x000, 0x003, 0x008, 0x00B, 0x014, 0x050, 0x0FC, 0x100, 0x7FFFFFFF].map wordAddr,
      w ≠ 0x004 ∧ w ≠ 0x00C ∧ w ≠ 0x010 ∧ w < 2 ^ 31) ∧
    (∀ w ∈ [0x80000080, 0xFFFFFFFF].map wordAddr,
      w ≠ 0x004 ∧ w ≠ 0x00C ∧ w ≠ 0x010 ∧ 2 ^ 31 + core128.bufCap ≤ w) :=
  ⟨fun _ _ => rfl, rfl, by decide +kernel, by decide +kernel, by decide +kernel, by decide +kernel, by decide +kernel⟩

/-- A write to BUF's last word changes the last four bytes and no other; the values are R63's. -/
theorem witness_HostWrite_last_word :
    (write 0x8000007F 0x11223344 core128).map (fun t => bytes t.buf 123 6) =
      some [none, some 0x11, some 0x22, some 0x33, some 0x44, none] := by decide +kernel

/-- The clauses of HostRead by word address, at both ends of their ranges, on a core of 128 bytes. -/
theorem witness_HostReadReturnsTheValueAndChangesNothing :
    (∀ addr : Word, (input (.bus (.read addr)) core128).nextEvent = .bus (.read addr)) ∧
    (input (.bus (.read 0x008)) core128).errcode.toNat ≤ 1 ∧ core128.bufCap < 2 ^ 32 ∧
    [0x000, 0x003, 0x004, 0x008, 0x00C, 0x010, 0x014, 0x018, 0x01C, 0x020, 0x024, 0x028, 0x02C, 0x030, 0x034, 0x037].map
        wordAddr =
      [0x000, 0x000, 0x004, 0x008, 0x00C, 0x010, 0x014, 0x018, 0x01C, 0x020, 0x024, 0x028, 0x02C, 0x030, 0x034, 0x034] ∧
    [0x040, 0x044, 0x048, 0x04C, 0x050, 0x053].map wordAddr = [0x040, 0x044, 0x048, 0x04C, 0x050, 0x050] ∧
    (wordAddr 0x038 = 0x038 ∧ wordAddr 0x03F = 0x03C) ∧
    (∀ w ∈ [0x054, 0x0FC, 0x100, 0x7FFFFFFF].map wordAddr, 0x054 ≤ w ∧ w < 2 ^ 31) ∧
    (∀ w ∈ [0x80000000, 0x80000003, 0x8000007C, 0x8000007F].map wordAddr, 2 ^ 31 ≤ w ∧ w < 2 ^ 31 + core128.bufCap) ∧
    (∀ w ∈ [0x80000080, 0xFFFFFFFF].map wordAddr, 2 ^ 31 + core128.bufCap ≤ w) :=
  ⟨fun _ => rfl, by decide +kernel, by decide +kernel, by decide +kernel, by decide +kernel, by decide +kernel,
    by decide +kernel, by decide +kernel, by decide +kernel⟩
theorem witness_ReservedErrCodeStopsAStatusRead :
    let s := input (.bus (.read 0x00B)) { core128 with errcode := 2 }
    s.nextEvent = .bus (.read 0x00B) ∧ wordAddr 0x00B = 0x008 ∧ 2 ≤ s.errcode.toNat := by decide +kernel
theorem witness_LowAddressBitsAreIgnored :
    (0x80000004#32).toNat / 4 = (0x80000007#32).toNat / 4 ∧ core128.errcode.toNat ≤ 1 := by decide +kernel
theorem witness_WrittenBufWordReadsBack :
    let s := { core128 with agenda := [.bus (.write 0x8000007C 5), .bus (.read 0x8000007F)] }
    s.phase = 0#4 ∧ s.agenda = .bus (.write 0x8000007C 5) :: .bus (.read 0x8000007F) :: [] ∧
    (0x8000007C#32).toNat / 4 = (0x8000007F#32).toNat / 4 ∧
    2 ^ 31 ≤ wordAddr 0x8000007C ∧ wordAddr 0x8000007C < 2 ^ 31 + s.bufCap := by decide +kernel

/-- The longest message of a core of 128 bytes (no filler), the empty one and the one with the most filler; with and
without CHAIN. -/
theorem witness_PadMicroOperation :
    (∀ p ∈ [(119, 0), (0, 55), (56, 63)], core128.bufCap % 64 = 0 ∧ core128.bufCap ≤ 2 ^ 31 ∧
      ({ core128 with mlen := BitVec.ofNat 32 p.1 }.mlen.toNat + 9 ≤ core128.bufCap) ∧ p.2 = (119 - p.1 % 64) % 64) ∧
    { core128 with chain := true }.chain = true ∧ core128.chain = false := by decide +kernel
theorem witness_FillerIsTheLeastAligningCount : (0 + 1 + 55 + 8) % 64 = 0 ∧ 55 % 64 = 55 ∧ 56 % 64 = 56 := by decide
theorem witness_PaddedMessageLaws : 8 * abc.length < 2 ^ 64 := by decide
theorem witness_PaddingTwiceIsPaddingOnce :
    (loaded abc).buf.wf ∧ ∃ t u, exec .uopPad (loaded abc) = .next t ∧ exec .uopPad t = .next u :=
  ⟨by decide +kernel, _, _, rfl, rfl⟩
theorem witness_PaddingBeyondBufStops :
    { core128 with mlen := 120 }.bufCap < { core128 with mlen := 120 }.mlen.toNat + 9 + fillerCount 120 := by decide +kernel
theorem witness_SchedMicroOperation : 64 * (compressing 3 0).blkidx.toNat + 64 ≤ (compressing 3 0).bufCap := by decide +kernel

/-- The last block of a core of 128 bytes, with a byte that is specified and one that is not. -/
theorem witness_SchedMicroOperation_last_block :
    64 * { core128 with blkidx := 1 }.blkidx.toNat + 64 ≤ core128.bufCap ∧
    (loaded abc).buf.byteAt? 2 = some 0x63 ∧ (loaded abc).buf.byteAt? 3 = none := by decide +kernel
theorem witness_ScheduleBeyondBufStops :
    { core128 with blkidx := 2 }.bufCap < 64 * { core128 with blkidx := 2 }.blkidx.toNat + 64 := by decide +kernel
theorem witness_SlidingWindowGivesTheSameWords : 0 < 64 ∧ 63 < 64 := by decide
theorem witness_RoundFunctionByBits :
    (∀ t ∈ [0, 19], t < 80 ∧ t < 20) ∧ (∀ t ∈ [20, 39], t < 80 ∧ 20 ≤ t ∧ t < 40) ∧
    (∀ t ∈ [40, 59], t < 80 ∧ 40 ≤ t ∧ t < 60) ∧ (∀ t ∈ [60, 79], t < 80 ∧ 60 ≤ t) := by decide
theorem witness_RoundMicroOperation :
    ∀ n ∈ [0, 19, 20, 39, 40, 59, 60, 79], (compressing 4 n).t.toNat < 80 := by decide +kernel
theorem witness_RoundIndexPastTheLastStops : ∀ n ∈ [80, 127], 80 ≤ (compressing 4 n).t.toNat := by decide +kernel
theorem witness_AccumMicroOperation :
    ((next? (exec .uopAccum (compressing 5 80))).map (·.phase)) = some 0#4 ∧
    ((next? (exec .uopAccum { compressing 5 80 with nblk := 2 })).map (·.phase)) = some 3#4 := by decide +kernel
theorem witness_CheckMicroOperation :
    ({ core128 with plen := 1 }.plen.toNat % 64 ≠ 0 ∧ { core128 with plen := 127 }.plen.toNat % 64 ≠ 0) ∧
    ({ core128 with plen := 64 }.plen.toNat % 64 = 0 ∧ { core128 with plen := 128 }.plen.toNat % 64 = 0) ∧
    core128.plen.toNat = 0 := by decide +kernel
theorem witness_DigestStringIsFortyDigits :
    let h : Digest := ⟨0x16B06BD9, 0xB738835E, 0x2D134FE8, 0xD596E9AB, 0x0086A985⟩
    ([h.h0, h.h1, h.h2, h.h3, h.h4][0]? = some 0x16B06BD9 ∧ 1 = (0x16B06BD9#32).toNat / 16 ^ (7 - 0) % 16) ∧
    ([h.h0, h.h1, h.h2, h.h3, h.h4][4]? = some 0x0086A985 ∧ 5 = (0x0086A985#32).toNat / 16 ^ (7 - 7) % 16) := by
  decide +kernel
theorem witness_ResetEventRestoresTheResetValues : (input .reset (compressing 4 7)).nextEvent = .reset := rfl
theorem witness_ResetMeetsTheInvariant : ∀ c ∈ [64, 1024, 2 ^ 31], Config.legalCap c := by decide +kernel

/-- A step out of a state that meets the invariant, of each kind of event. -/
theorem witness_EveryStepKeepsTheInvariant :
    (∃ t, step (compressing 4 79) = .next t) ∧ (∃ t, step (input .reset (compressing 4 79)) = .next t) ∧
    (∃ t, step (starting 2 core128) = .next t) := ⟨⟨_, rfl⟩, ⟨_, rfl⟩, ⟨_, rfl⟩⟩
theorem witness_EveryStepKeepsBufCanonical : (loaded abc).buf.wf ∧ ∃ t, step (inPhase 1 (loaded abc)) = .next t :=
  ⟨by decide +kernel, _, rfl⟩

/-- Steps that change each element. -/
theorem witness_ElementsAreWrittenOnlyAsListed :
    ((write 0x00C 5 core128).map fun t => t.mlen) = some 5#32 ∧ ((write 0x010 5 core128).map fun t => t.plen) = some 5#32 ∧
    ((next? (step (inPhase 1 core128))).map fun t => t.plen) = some 64#32 ∧
    ((next? (step { inPhase 2 core128 with plen := 64, h := ⟨0, 0, 0, 0, 0⟩, blkidx := 3 })).map fun t =>
      (t.nblk, t.blkidx, t.h)) = some (1#32, 0#32, iv) ∧
    ((next? (step (inPhase 3 { loaded (List.replicate 64 1) with t := 80 }))).map fun t => (t.t, t.work.a, t.w[0])) =
      some (0#7, 0x67452301#32, 0x01010101#32) ∧
    ((next? (step (compressing 4 0))).map fun t => (t.t, t.work.a)) = some (1#7, 0x5A827999#32) ∧
    ((next? (step { compressing 5 80 with work := ⟨1, 0, 0, 0, 0⟩ })).map fun t => (t.blkidx, t.h.h0)) =
      some (1#32, 0x67452302#32) := by decide +kernel
theorem witness_AcceptsCommand : (starting 1 core128).AcceptsCommand ∧ (starting 3 core128).AcceptsCommand :=
  ⟨⟨rfl, _, _, rfl, rfl, by decide, by decide⟩, ⟨rfl, _, _, rfl, rfl, by decide, by decide⟩⟩

/-- The same for the fields of STATUS: PHASE, CHAIN, DONE, ERR and ERRCODE. -/
theorem witness_ElementsAreWrittenOnlyAsListed_status :
    ((write 0x004 3 { core128 with done := true }).map fun t => (t.phase, t.chain, t.done)) = some (1#4, true, false) ∧
    ((next? (step (inPhase 1 { core128 with chain := true }))).map fun t => (t.phase, t.chain, t.done)) =
      some (2#4, false, false) ∧
    ((next? (step (inPhase 2 core128))).map fun t => (t.phase, t.done)) = some (0#4, true) ∧
    ((next? (step { inPhase 2 core128 with plen := 1 })).map fun t => (t.phase, t.err, t.errcode)) = some (0#4, true, 1#4) := by
  decide +kernel
theorem witness_ErrorIsSetOnlyByCheck :
    ((next? (step { inPhase 2 core128 with plen := 65 })).map fun t => (t.err, t.errcode)) = some (true, 1#4) ∧
    ((write 0x004 1 { core128 with err := true, errcode := 1 }).map fun t => (t.err, t.errcode)) = some (false, 0#4) ∧
    ((next? (step (input .reset { core128 with err := true, errcode := 1 }))).map fun t => (t.err, t.errcode)) =
      some (false, 0#4) := by decide +kernel
theorem witness_DoneIsSetOnlyAtCompletion :
    ((next? (step (inPhase 1 core128))).map fun t => t.done) = some true ∧
    ((next? (step (inPhase 2 core128))).map fun t => t.done) = some true ∧
    ((next? (step (compressing 5 80))).map fun t => t.done) = some true ∧ (compressing 5 80).done = false := by
  decide +kernel
theorem witness_MicroOperationsRunInOrder :
    [inPhase 1 core128, inPhase 1 { core128 with chain := true }, inPhase 2 { core128 with plen := 64 },
      compressing 3 0, compressing 4 0, compressing 4 79, compressing 5 80].map
        (fun s => (next? (step s)).map fun t => t.phase) =
      [some 0, some 2, some 3, some 4, some 4, some 5, some 0] := by decide +kernel
theorem witness_AboutToRun (v : Word) : (starting v (loaded abc)).AboutToRun v := ⟨rfl, rfl⟩
theorem witness_PadCommandPadsTheMessage : (starting 1 (loaded abc)).Inv ∧ (starting 1 (loaded abc)).AboutToRun 1 :=
  ⟨by constructor <;> decide +kernel, rfl, rfl⟩
theorem witness_MisalignedComputeReportsAndChangesNothing :
    let s := starting 2 { core128 with plen := 65 }
    s.AboutToRun 2 ∧ s.plen.toNat % 64 ≠ 0 := ⟨⟨rfl, rfl⟩, by decide +kernel⟩

/-- One block of zeros, and none. -/
theorem witness_ComputeCompressesTheBlocks :
    (let s := starting 2 { loaded (List.replicate 64 0) with plen := 64 }
     s.Inv ∧ s.AboutToRun 2 ∧ s.plen.toNat = 64 * 1 ∧ ∀ i, i < 64 * 1 → s.buf.byteAt? i = some ((fun _ => 0) i)) ∧
    (let s := starting 2 core128
     s.Inv ∧ s.AboutToRun 2 ∧ s.plen.toNat = 64 * 0 ∧ ∀ i, i < 64 * 0 → s.buf.byteAt? i = some ((fun _ => 0) i)) :=
  ⟨⟨by constructor <;> decide +kernel, ⟨rfl, rfl⟩, by decide +kernel, by decide +kernel⟩,
    ⟨by constructor <;> decide +kernel, ⟨rfl, rfl⟩, by decide +kernel, by decide +kernel⟩⟩

/-- A message, and the empty one. -/
theorem witness_HashComputesSha1 :
    (let s := starting 3 (loaded abc); s.Inv ∧ s.AboutToRun 3 ∧ s.mlen.toNat = abc.length ∧ s.Holds abc) ∧
    (let s := starting 3 core128; s.Inv ∧ s.AboutToRun 3 ∧ s.mlen.toNat = ([] : List Byte).length ∧ s.Holds []) :=
  ⟨⟨by constructor <;> decide +kernel, ⟨rfl, rfl⟩, by decide +kernel, by unfold State.Holds; decide +kernel⟩,
    ⟨by constructor <;> decide +kernel, ⟨rfl, rfl⟩, by decide +kernel, by unfold State.Holds; decide +kernel⟩⟩

/-- Two cores that differ in everything but the message. -/
theorem witness_DigestDependsOnTheMessageAlone :
    let s := starting 3 (loaded abc)
    let s' := starting 3 { loaded abc with bufCap := 64, done := true, h := ⟨1, 2, 3, 4, 5⟩, t := 80, plen := 7, draws := 9 }
    s.Inv ∧ s'.Inv ∧ s.AboutToRun 3 ∧ s'.AboutToRun 3 ∧ s.mlen.toNat = abc.length ∧ s'.mlen.toNat = abc.length ∧
    s.Holds abc ∧ s'.Holds abc :=
  ⟨by constructor <;> decide +kernel, by constructor <;> decide +kernel, ⟨rfl, rfl⟩, ⟨rfl, rfl⟩, by decide +kernel,
    by decide +kernel, by unfold State.Holds; decide +kernel, by unfold State.Holds; decide +kernel⟩
theorem witness_EngineStepCounts :
    (starting 2 { core128 with plen := 64 }).Inv ∧ (starting 2 { core128 with plen := 64 }).AboutToRun 2 :=
  ⟨by constructor <;> decide +kernel, rfl, rfl⟩

/-- Reads of STATUS and H0 and a write of MLEN among the engine steps. -/
theorem witness_DigestUnderEveryInterleaving :
    let rest := [.bus (.read 0x008), .bus (.write 0x00C 9)] ++ List.replicate 83 .engine ++ [.bus (.read 0x020), .engine]
    let s := { loaded abc with agenda := .bus (.write (Reg.offset .cmd) 3#32) :: rest }
    s.Inv ∧ s.phase = 0#4 ∧ s.mlen.toNat = abc.length ∧ s.Holds abc ∧
    s.agenda = .bus (.write (Reg.offset .cmd) 3#32) :: rest ∧ .reset ∉ rest ∧
    rest.count .engine = 2 + 82 * (paddedLength abc.length / 64) ∧ rest.getLast? = some .engine :=
  ⟨by constructor <;> decide +kernel, rfl, by decide +kernel, by unfold State.Holds; decide +kernel, rfl,
    by decide +kernel, by decide +kernel, by decide +kernel⟩
theorem witness_LoadMsgStoresTheMessage :
    let s := { core128 with agenda := busEvents (loadMsg abc) }
    s.Inv ∧ s.phase = 0#4 ∧ abc.length + 9 ≤ s.bufCap ∧ s.agenda = busEvents (loadMsg abc) :=
  ⟨by constructor <;> decide +kernel, rfl, by decide +kernel, rfl⟩

/-- A POLL as the host's whole program, idle and busy. -/
theorem witness_PollLoopsExactlyWhileBusy :
    ∀ p ∈ [0#4, 4#4], let r := HostRun.mk (inPhase p core128) (pollLines 7 1) 0 [] false []
      r.core.errcode.toNat ≤ 1 ∧ r.core.agenda = [] ∧ r.aborted = false ∧
      (∀ k, k < 3 → r.program[r.line + k]? = (pollLines 7 1)[k]?) ∧ r.target? 7 = some r.line := by decide +kernel

/-- The opcode table's rows run as the first step after reset (log 5). -/
theorem test_withFetchWord :
    [(32, 0), (32, 1), (32, 2), (32, 3), (8, 1), (8, 2), (8, 3), (8, 4), (8, 5)].map
        (fun p => (next? (step (State.reset.withFetchWord p.1 p.2))).map fun t => t.phase) =
      [some 0, some 1, some 2, some 1, some 0, some 0, some 4, some 4, some 3] := by decide +kernel

end Sys2Proof.Tests
end

/-! ## Micro-operations that would leave BUF (log 7) -/
section
namespace Sys2Proof.Machine

@[simp] theorem exec_uopPad (s : State) : exec .uopPad s = execUopPad s := rfl

@[simp] theorem exec_uopSched (s : State) : exec .uopSched s = execUopSched s := rfl

/-- Settles O22: MLEN + 9 + z is the padded length of 40_padder.md R114, and uop.PAD compares it with BUF_CAP first. -/
theorem paddingBeyondBufStops : Obligations.PaddingBeyondBufStops := by
  intro s h
  have overrun : s.bufCap < paddedLength s.mlen.toNat := h
  rw [exec_uopPad, execUopPad_overrun overrun]

/-- Settles O25: uop.SCHED compares the end of block BLKIDX with BUF_CAP first. -/
theorem scheduleBeyondBufStops : Obligations.ScheduleBeyondBufStops := by
  intro s overrun
  rw [exec_uopSched, execUopSched_overrun overrun]

end Sys2Proof.Machine
end

/-! ## The invariant of 10_state.md R40: it holds right after reset, and every update that a step makes keeps it -/
section
namespace Sys2Proof.Machine

theorem State.loadIv_nblk_toNat (s : State) : s.loadIv.nblk.toNat = s.plen.toNat / 64 := by
  rw [State.loadIv_nblk, BitVec.toNat_ofNat]; omega

/-- The padding ends inside a buffer that the padded length fits. -/
theorem padTail_fits {len cap : Nat} (fits : paddedLength len ≤ cap) : len + (padTail len).length ≤ cap :=
  (padTail_length len).trans_le fits

/-- A word that begins in a buffer of a legal capacity also ends in it (20_memory.md R65). -/
theorem wordAddr_end_le {cap : Nat} (legal : Config.legalCap cap) {addr : Word} (high : wordAddr addr < 2 ^ 31 + cap) :
    wordAddr addr - 2 ^ 31 + 4 ≤ cap := by
  obtain ⟨blocks, least, -⟩ := legal
  unfold wordAddr at high ⊢
  omega

/-- The block index does not wrap while a block is left. -/
theorem blkidx_succ_toNat {s : State} (left : s.blkidx.toNat < s.nblk.toNat) :
    (s.blkidx + 1).toNat = s.blkidx.toNat + 1 := by
  have := s.nblk.isLt
  bv_omega

/-- The round index does not wrap in a round. -/
theorem t_succ_toNat {s : State} (index : s.t.toNat < 80) : (s.t + 1).toNat = s.t.toNat + 1 := by
  bv_omega

namespace State

theorem resetAt_inv {c : Nat} (legal : Config.legalCap c) : (resetAt c).Inv where
  capLegal := legal
  phaseDefined := Nat.zero_le _
  chainOnlyInPad := nofun
  roundIndexBound := Nat.zero_le _
  blockIndexBound := Nat.le_refl 0
  blockCountBound := Nat.zero_le _
  mlenLegal := le_trans (by decide : 0 + 9 ≤ 64) legal.2.1
  plenLegal := Nat.zero_le _
  compressing := by simp [resetAt]
  roundIndexInRound := by simp [resetAt]
  roundIndexInAccum := by simp [resetAt]
  flagsExclusive := nofun
  errHasCode := by simp [resetAt]
  errcodeDefined := .inl rfl
  noFlagWhileBusy := fun busy => absurd rfl busy
  bufCanonical := .nil
  bufInside := nofun

namespace Inv

/-! Each update names the clauses about the elements it writes; the other clauses are those of the state before. -/

variable {s : State}

theorem chain_eq_false (h : s.Inv) (p : s.phase ≠ 1#4) : s.chain = false :=
  Bool.eq_false_iff.2 fun c => p (h.chainOnlyInPad c)

theorem popped (h : s.Inv) : s.popped.Inv := { h with }

theorem resetEvent (h : s.Inv) : s.resetEvent.Inv := { resetAt_inv h.capLegal with }

theorem reply (h : s.Inv) (addr v : Word) : (s.reply addr v).Inv := { h with }

theorem accept (h : s.Inv) {ch : Bool} {first : BitVec 4} (start : first = 1#4 ∨ first = 2#4)
    (chained : ch = true → first = 1#4) : (s.accept ch first).Inv := by
  rcases start with rfl | rfl <;>
  exact { h with
    phaseDefined := by simp
    chainOnlyInPad := chained
    compressing := by simp
    roundIndexInRound := by simp
    roundIndexInAccum := by simp
    flagsExclusive := nofun
    errHasCode := by simp
    errcodeDefined := .inl rfl
    noFlagWhileBusy := fun _ => ⟨rfl, rfl⟩ }

theorem setMlen (h : s.Inv) {v : Word} (legal : v.toNat + 9 ≤ s.bufCap) : { s with mlen := v }.Inv :=
  { h with mlenLegal := legal }

theorem setPlen (h : s.Inv) (idle : s.phase = 0#4) {v : Word} (legal : v.toNat ≤ s.bufCap) :
    { s with plen := v }.Inv :=
  { h with
    plenLegal := legal
    compressing := by simp [idle] }

theorem storeBytes (h : s.Inv) {i : Nat} {bs : List Byte} (fits : i + bs.length ≤ s.bufCap) :
    (s.storeBytes i bs).Inv :=
  { h with
    bufCanonical := Memory.setBytes_wf h.bufCanonical i bs
    bufInside := Memory.setBytes_within h.bufInside fits }

theorem padded (h : s.Inv) (pad : s.phase = 1#4) (fits : paddedLength s.mlen.toNat ≤ s.bufCap) : s.padded.Inv :=
  { h.storeBytes (padTail_fits fits) with
    plenLegal := le_trans (Nat.mod_le _ _) fits
    compressing := by simp [pad] }

theorem unchain (h : s.Inv) (busy : s.phase ≠ 0#4) : s.unchain.Inv :=
  { h with
    phaseDefined := by simp
    chainOnlyInPad := nofun
    compressing := by simp
    roundIndexInRound := by simp
    roundIndexInAccum := by simp
    noFlagWhileBusy := fun _ => h.noFlagWhileBusy busy }

theorem complete (h : s.Inv) (busy : s.phase ≠ 0#4) (chain : s.chain = false) : s.complete.Inv :=
  { h with
    phaseDefined := Nat.zero_le _
    chainOnlyInPad := by simp [chain]
    compressing := by simp
    roundIndexInRound := by simp
    roundIndexInAccum := by simp
    flagsExclusive := by simp [(h.noFlagWhileBusy busy).2]
    noFlagWhileBusy := fun busy => absurd rfl busy }

theorem raiseAlignmentError (h : s.Inv) (check : s.phase = 2#4) : s.raiseAlignmentError.Inv :=
  { h with
    phaseDefined := Nat.zero_le _
    chainOnlyInPad := by simp [h.chain_eq_false, check]
    compressing := by simp
    roundIndexInRound := by simp
    roundIndexInAccum := by simp
    flagsExclusive := by simp [(h.noFlagWhileBusy (by simp [check])).1]
    errHasCode := by simp
    errcodeDefined := .inr rfl
    noFlagWhileBusy := fun busy => absurd rfl busy }

theorem loadIv (h : s.Inv) (check : s.phase = 2#4) : s.loadIv.Inv :=
  { h with
    blockIndexBound := Nat.zero_le _
    blockCountBound := s.loadIv_nblk_toNat.trans_le (Nat.div_le_div_right h.plenLegal)
    compressing := by simp [check] }

/-- On to SCHED or ROUND with a block to compress. -/
theorem goto (h : s.Inv) (busy : s.phase ≠ 0#4) (chain : s.chain = false) {p : BitVec 4} (next : p = 3#4 ∨ p = 4#4)
    (block : s.plen.toNat % 64 = 0 ∧ s.nblk.toNat = s.plen.toNat / 64 ∧ s.blkidx.toNat < s.nblk.toNat)
    (index : p = 4#4 → s.t.toNat < 80) : (s.goto p).Inv :=
  { h with
    phaseDefined := by rcases next with rfl | rfl <;> simp
    chainOnlyInPad := by simp [chain]
    compressing := fun _ => block
    roundIndexInRound := index
    roundIndexInAccum := by rcases next with rfl | rfl <;> simp
    noFlagWhileBusy := fun _ => h.noFlagWhileBusy busy }

theorem scheduled (h : s.Inv) (sched : s.phase = 3#4) : s.scheduled.drawn.Inv :=
  { h with
    roundIndexBound := Nat.zero_le _
    roundIndexInRound := by simp [sched]
    roundIndexInAccum := by simp [sched] }

/-- A round ends in ROUND with the next index, or in ACCUM with index 80. -/
theorem rounded (h : s.Inv) (round : s.phase = 4#4) (wt : Word) :
    ((s.rounded wt).goto (if s.t.toNat = 79 then 5#4 else 4#4)).Inv :=
  have index := h.roundIndexInRound round
  have next := t_succ_toNat index
  { h with
    phaseDefined := by simp; split <;> simp
    chainOnlyInPad := by simp [h.chain_eq_false, round]
    roundIndexBound := next.trans_le index
    compressing := fun _ => h.compressing (.inr (.inl round))
    roundIndexInRound := fun again =>
      have more : s.t.toNat ≠ 79 := by simpa using again
      next.trans_lt (by omega)
    roundIndexInAccum := fun last => next.trans (by simpa using last)
    noFlagWhileBusy := fun _ => h.noFlagWhileBusy (by simp [round]) }

theorem accumulated (h : s.Inv) (bound : (s.blkidx + 1).toNat ≤ s.nblk.toNat)
    (more : s.phase ≠ 0#4 → (s.blkidx + 1).toNat < s.nblk.toNat) : s.accumulated.Inv :=
  { h with
    blockIndexBound := bound
    compressing := fun p =>
      have ⟨aligned, count, _⟩ := h.compressing p
      ⟨aligned, count, more fun idle => by simp [idle] at p⟩ }

end Inv
end State

theorem StepCase.inv {s t : State} (h : s.Inv) (c : StepCase s t) : t.Inv := by
  cases c with
  | reset event result => exact result ▸ h.popped.resetEvent
  | read addr event result => exact result ▸ h.popped.reply ..
  | ignored addr v event result => exact result ▸ h.popped
  | command addr v event idle cmd chain first word result =>
    rcases word with ⟨-, rfl, rfl⟩ | ⟨-, rfl, rfl⟩ | ⟨-, rfl, rfl⟩ <;>
      exact result ▸ h.popped.accept (by simp) (by simp)
  | mlen addr v event idle reg legal result => exact result ▸ h.popped.setMlen legal
  | plen addr v event idle reg legal result => exact result ▸ h.popped.setPlen idle legal
  | buf addr v event idle low high result => exact result ▸ h.popped.storeBytes (wordAddr_end_le h.capLegal high)
  | engineIdle event phase result => exact result ▸ h.popped
  | padChained event phase fits chain result =>
    exact result ▸ (h.popped.padded phase fits).unchain (by simp [phase])
  | padAlone event phase fits chain result =>
    exact result ▸ (h.popped.padded phase fits).complete (by simp [phase]) chain
  | checkError event phase misaligned result => exact result ▸ h.popped.raiseAlignmentError phase
  | checkEmpty event phase empty result =>
    exact result ▸ (h.popped.loadIv phase).complete (by simp [phase]) (h.chain_eq_false (by simp [phase]))
  | checkBlocks event phase aligned nonempty result =>
    exact result ▸ (h.popped.loadIv phase).goto (by simp [phase]) (h.chain_eq_false (by simp [phase])) (.inl rfl)
      ⟨aligned, s.popped.loadIv_nblk_toNat, by simp; omega⟩ (by simp)
  | sched event phase fits result =>
    exact result ▸ (h.popped.scheduled phase).goto (by simp [phase]) (h.chain_eq_false (by simp [phase])) (.inr rfl)
      (h.compressing (.inl phase)) (by simp)
  | round event phase index result => exact result ▸ h.popped.rounded phase _
  | accumLast event phase last result =>
    have idle := h.popped.complete (by simp [phase]) (h.chain_eq_false (by simp [phase]))
    exact result ▸ idle.accumulated (last ▸ Nat.le_refl _) (by simp)
  | accumMore event phase more result =>
    obtain ⟨aligned, count, left⟩ := h.compressing (.inr (.inr phase))
    have next := h.popped.goto (by simp [phase]) (h.chain_eq_false (by simp [phase])) (.inl rfl)
      ⟨aligned, count, left⟩ (by simp)
    have lt : (s.blkidx + 1).toNat < s.nblk.toNat := by
      have := mt BitVec.eq_of_toNat_eq more
      rw [blkidx_succ_toNat left] at this ⊢
      omega
    exact result ▸ next.accumulated lt.le fun _ => lt

/-- Settles O34. -/
theorem resetMeetsTheInvariant : Obligations.ResetMeetsTheInvariant := fun _ legal => State.resetAt_inv legal

/-- Settles O35: by the cases of a step, each an update that keeps the invariant. -/
theorem everyStepKeepsTheInvariant : Obligations.EveryStepKeepsTheInvariant := fun _ _ h next => (step_cases next).inv h

end Sys2Proof.Machine
end

/-! ## What writes each element of the state (10_state.md R20, R25, R26) -/
section
namespace Sys2Proof.Machine

/-! ### Events whose effect is certain -/

/-- While idle, a starting word written to CMD is accepted (44_commands.md R180). -/
theorem step_command {s : State} {addr v : Word} (idle : s.phase = 0#4) (event : s.nextEvent = .bus (.write addr v))
    (cmd : wordAddr addr = 0x004) (low : 1 ≤ v.toNat) (high : v.toNat ≤ 3) :
    ∃ chain first, step s = .next (s.popped.accept chain first) := by
  rw [step_write event, hostWrite_idle (by exact idle), if_pos cmd, commandAccept_idle (by exact idle)]
  obtain word | word | word : v.toNat = 1 ∨ v.toNat = 2 ∨ v.toNat = 3 := by omega
  · exact ⟨false, 1#4, by simp [word]⟩
  · exact ⟨false, 2#4, by simp [word]⟩
  · exact ⟨true, 1#4, by simp [word]⟩

/-- A CHECK that finds a bad length raises the error (40_padder.md R118). -/
theorem step_check_misaligned {s : State} (event : s.nextEvent = .engine) (check : s.phase = 2#4)
    (misaligned : s.plen.toNat % 64 ≠ 0) : step s = .next s.popped.raiseAlignmentError := by
  rw [step_engine event, engineStep_check (by exact check), exec, execUopCheck_misaligned (by exact misaligned)]

namespace StepCase

/-! ### What a step was, when it changed an element

Each proof names the cases that write the element; in every other case the element is the old one by definition. -/

variable {s t : State}

theorem bufCap_eq (c : StepCase s t) : t.bufCap = s.bufCap := by cases c <;> subst t <;> rfl

theorem error_changed (c : StepCase s t) (ne : t.err ≠ s.err ∨ t.errcode ≠ s.errcode) :
    (s.nextEvent = .engine ∧ s.phase = 2#4 ∧ s.plen.toNat % 64 ≠ 0 ∧ t.err = true ∧ t.errcode = 1#4) ∨
      (t.err = false ∧ t.errcode = 0#4 ∧ (s.nextEvent = .reset ∨ s.AcceptsCommand)) := by
  cases c with
  | reset event => subst t; exact .inr ⟨rfl, rfl, .inl event⟩
  | command addr v event idle cmd =>
    subst t; exact .inr ⟨rfl, rfl, .inr ⟨idle, addr, v, event, cmd, by omega, by omega⟩⟩
  | checkError event check misaligned => subst t; exact .inl ⟨event, check, misaligned, rfl, rfl⟩
  | _ => subst t; exact absurd ne (by simp)

theorem done_set (c : StepCase s t) (before : s.done = false) (after : t.done = true) :
    s.nextEvent = .engine ∧ t.phase = 0#4 ∧
      ((s.phase = 1#4 ∧ s.chain = false) ∨ (s.phase = 2#4 ∧ s.plen = 0#32) ∨
        (s.phase = 5#4 ∧ s.blkidx + 1 = s.nblk)) := by
  cases c with
  | padAlone event pad _ chain => subst t; exact ⟨event, rfl, .inl ⟨pad, chain⟩⟩
  | checkEmpty event check empty => subst t; exact ⟨event, rfl, .inr (.inl ⟨check, BitVec.eq_of_toNat_eq empty⟩)⟩
  | accumLast event accum last => subst t; exact ⟨event, rfl, .inr (.inr ⟨accum, last⟩)⟩
  | reset | command => subst t; cases after
  | _ => subst t; cases before.symm.trans after

section
variable (c : StepCase s t) (live : s.nextEvent ≠ .reset)
include c live

theorem mlen_changed (ne : t.mlen ≠ s.mlen) :
    s.phase = 0#4 ∧ ∃ addr v, s.nextEvent = .bus (.write addr v) ∧ wordAddr addr = 0x00C ∧ t.mlen = v := by
  cases c with
  | reset event => exact absurd event live
  | mlen addr v event idle reg => subst t; exact ⟨idle, addr, v, event, reg, rfl⟩
  | _ => subst t; exact absurd rfl ne

theorem plen_changed (ne : t.plen ≠ s.plen) :
    (s.phase = 0#4 ∧ ∃ addr v, s.nextEvent = .bus (.write addr v) ∧ wordAddr addr = 0x010 ∧ t.plen = v) ∨
      (s.nextEvent = .engine ∧ s.phase = 1#4) := by
  cases c with
  | reset event => exact absurd event live
  | plen addr v event idle reg => subst t; exact .inl ⟨idle, addr, v, event, reg, rfl⟩
  | padChained event phase | padAlone event phase => exact .inr ⟨event, phase⟩
  | _ => subst t; exact absurd rfl ne

theorem nblk_changed (ne : t.nblk ≠ s.nblk) : s.nextEvent = .engine ∧ s.phase = 2#4 := by
  cases c with
  | reset event => exact absurd event live
  | checkEmpty event phase | checkBlocks event phase => exact ⟨event, phase⟩
  | _ => subst t; exact absurd rfl ne

theorem blkidx_or_h_changed (ne : t.blkidx ≠ s.blkidx ∨ t.h ≠ s.h) :
    s.nextEvent = .engine ∧ (s.phase = 2#4 ∨ s.phase = 5#4) := by
  cases c with
  | reset event => exact absurd event live
  | checkEmpty event phase | checkBlocks event phase => exact ⟨event, .inl phase⟩
  | accumLast event phase | accumMore event phase => exact ⟨event, .inr phase⟩
  | _ => subst t; exact absurd ne (by simp)

theorem t_or_work_changed (ne : t.t ≠ s.t ∨ t.work ≠ s.work) :
    s.nextEvent = .engine ∧ (s.phase = 3#4 ∨ s.phase = 4#4) := by
  cases c with
  | reset event => exact absurd event live
  | sched event phase => exact ⟨event, .inl phase⟩
  | round event phase => exact ⟨event, .inr phase⟩
  | _ => subst t; exact absurd ne (by simp)

theorem w_changed (ne : t.w ≠ s.w) : s.nextEvent = .engine ∧ s.phase = 3#4 := by
  cases c with
  | reset event => exact absurd event live
  | sched event phase => exact ⟨event, phase⟩
  | _ => subst t; exact absurd rfl ne

theorem buf_changed (ne : t.buf ≠ s.buf) :
    (s.phase = 0#4 ∧ ∃ addr v, s.nextEvent = .bus (.write addr v) ∧ 2 ^ 31 ≤ wordAddr addr ∧
      wordAddr addr < 2 ^ 31 + s.bufCap) ∨ (s.nextEvent = .engine ∧ s.phase = 1#4) := by
  cases c with
  | reset event => exact absurd event live
  | buf addr v event idle low high => exact .inl ⟨idle, addr, v, event, low, high⟩
  | padChained event phase | padAlone event phase => exact .inr ⟨event, phase⟩
  | _ => subst t; exact absurd rfl ne

theorem phase_changed (ne : t.phase ≠ s.phase) : s.AcceptsCommand ∨ (s.nextEvent = .engine ∧ s.phase ≠ 0#4) := by
  cases c with
  | reset event => exact absurd event live
  | command addr v event idle cmd => exact .inl ⟨idle, addr, v, event, cmd, by omega, by omega⟩
  | padChained event phase | padAlone event phase | checkError event phase | checkEmpty event phase
  | checkBlocks event phase | sched event phase | round event phase | accumLast event phase | accumMore event phase =>
    exact .inr ⟨event, by simp [phase]⟩
  | _ => subst t; exact absurd rfl ne

theorem chain_changed (ne : t.chain ≠ s.chain) :
    s.AcceptsCommand ∨ (s.nextEvent = .engine ∧ s.phase = 1#4 ∧ t.chain = false) := by
  cases c with
  | reset event => exact absurd event live
  | command addr v event idle cmd => exact .inl ⟨idle, addr, v, event, cmd, by omega, by omega⟩
  | padChained event phase => subst t; exact .inr ⟨event, phase, rfl⟩
  | _ => subst t; exact absurd rfl ne

theorem done_changed (ne : t.done ≠ s.done) : (s.AcceptsCommand ∧ t.done = false) ∨
    (s.nextEvent = .engine ∧ (s.phase = 1#4 ∨ s.phase = 2#4 ∨ s.phase = 5#4) ∧ t.done = true) := by
  cases c with
  | reset event => exact absurd event live
  | command addr v event idle cmd => subst t; exact .inl ⟨⟨idle, addr, v, event, cmd, by omega, by omega⟩, rfl⟩
  | padAlone event phase | checkEmpty event phase | accumLast event phase =>
    subst t; exact .inr ⟨event, by simp [phase], rfl⟩
  | _ => subst t; exact absurd rfl ne

theorem error_changed_live (ne : t.err ≠ s.err ∨ t.errcode ≠ s.errcode) :
    s.AcceptsCommand ∨ (s.nextEvent = .engine ∧ s.phase = 2#4) := by
  rcases c.error_changed ne with ⟨event, check, -⟩ | ⟨-, -, event | accepts⟩
  · exact .inr ⟨event, check⟩
  · exact absurd event live
  · exact .inl accepts

end
end StepCase

/-- Settles O38, element by element. -/
theorem elementsAreWrittenOnlyAsListed : Obligations.ElementsAreWrittenOnlyAsListed := by
  intro s t next live
  have c := step_cases next
  exact ⟨c.bufCap_eq, c.mlen_changed live, c.plen_changed live, c.nblk_changed live,
    fun ne => c.blkidx_or_h_changed live (.inl ne), fun ne => c.t_or_work_changed live (.inl ne),
    fun ne => c.blkidx_or_h_changed live (.inr ne), fun ne => c.t_or_work_changed live (.inr ne), c.w_changed live,
    c.buf_changed live, c.phase_changed live, c.chain_changed live, c.done_changed live, c.error_changed_live live⟩

/-- Settles O39: the inversion of a step gives the first clause, and the effect of each of the three kinds of step the others. -/
theorem errorIsSetOnlyByCheck : Obligations.ErrorIsSetOnlyByCheck := by
  intro s t next
  refine ⟨(step_cases next).error_changed, fun addr v idle event cmd low high => ?_, fun event check misaligned => ?_,
    fun event => ?_⟩
  · obtain ⟨chain, first, accepted⟩ := step_command idle event cmd low high
    obtain rfl := Host.Outcome.next.inj (next.symm.trans accepted)
    exact ⟨rfl, rfl⟩
  · obtain rfl := Host.Outcome.next.inj (next.symm.trans (step_check_misaligned event check misaligned))
    exact ⟨rfl, rfl⟩
  · obtain rfl := Host.Outcome.next.inj (next.symm.trans (step_reset event))
    exact ⟨rfl, rfl⟩

/-- Settles O40, by the inversion of a step. -/
theorem doneIsSetOnlyAtCompletion : Obligations.DoneIsSetOnlyAtCompletion := fun _ _ next => (step_cases next).done_set

end Sys2Proof.Machine
end

/-! ## The host's accesses (20_memory.md R60 to R66, R73) -/
section
namespace Sys2Proof.Machine

theorem wordAddr_congr {addr addr' : Word} (same : addr.toNat / 4 = addr'.toNat / 4) : wordAddr addr = wordAddr addr' :=
  congrArg (· * 4) same

/-! ### A word stored in BUF -/

section
variable (s : State) (i k : Nat) (v : Word)

theorem State.storeBytes_inside (bs : List Byte) (inside : k < bs.length) :
    (s.storeBytes i bs).buf.byteAt? (i + k) = some bs[k] := Memory.byteAt?_setBytes_inside s.buf i bs k inside

theorem State.bufByte_storeBytes (bs : List Byte) (inside : k < bs.length) :
    (s.storeBytes i bs).bufByte (i + k) = bs[k] := bufByte_of_some (s.storeBytes_inside i k bs inside)

/-- A stored word is the word read at the same index: BUF is big-endian in both directions (R66). -/
theorem State.bufWord_storeBytes : (s.storeBytes i (be32Bytes v)).bufWord i = v := by
  have byte k (inside : k < 4) := s.bufByte_storeBytes i k (be32Bytes v) inside
  have first : (s.storeBytes i (be32Bytes v)).bufByte i = (be32Bytes v)[0] := byte 0 (by decide)
  rw [State.bufWord, first, byte 1 (by decide), byte 2 (by decide), byte 3 (by decide)]
  exact be32_be32Bytes v

end

/-! ### Writes -/

/-- No host write stops the machine. -/
theorem hostWrite_safe (s : State) (addr v : Word) : Safe (hostWrite exec addr v s) := by
  by_cases idle : s.phase = 0#4
  · rw [hostWrite_idle idle, commandAccept_idle idle]
    split_ifs <;> exact ⟨_, rfl⟩
  · exact ⟨s, hostWrite_busy idle addr v⟩

section
variable {s : State} {addr v : Word}

theorem commandAccept_of_ok {run : Instr → State → Result} {i : Instr} (defined : decode (.cmd v) = .ok i) :
    commandAccept run v s = run i s := by
  rw [commandAccept, defined]

theorem commandAccept_of_error {run : Instr → State → Result} {e : DecodeError}
    (reserved : decode (.cmd v) = .error e) : commandAccept run v s = .next s := by
  rw [commandAccept, reserved]

section
variable (event : s.nextEvent = .bus (.write addr v))
include event

theorem step_write_busy (busy : s.phase ≠ 0#4) : step s = .next s.popped :=
  (step_write event).trans (hostWrite_busy (by exact busy) addr v)

variable (idle : s.phase = 0#4)
include idle

theorem step_write_cmd (cmd : wordAddr addr = 0x004) : step s = commandAccept exec v s.popped := by
  rw [step_write event, hostWrite_idle (by exact idle), if_pos cmd]

theorem step_write_mlen (mlen : wordAddr addr = 0x00C) : step s = .next (s.popped.writeMlen v) := by
  rw [step_write event, hostWrite_idle (by exact idle), if_neg (by omega), if_pos mlen]

theorem step_write_plen (plen : wordAddr addr = 0x010) : step s = .next (s.popped.writePlen v) := by
  rw [step_write event, hostWrite_idle (by exact idle), if_neg (by omega), if_neg (by omega), if_pos plen]

theorem step_write_buf (low : 2 ^ 31 ≤ wordAddr addr) (high : wordAddr addr < 2 ^ 31 + s.bufCap) :
    step s = .next (s.popped.storeBytes (wordAddr addr - 2 ^ 31) (be32Bytes v)) := by
  rw [step_write event, hostWrite_idle (by exact idle), if_neg (by omega), if_neg (by omega), if_neg (by omega),
    if_pos ⟨low, high⟩]

theorem step_write_elsewhere (cmd : wordAddr addr ≠ 0x004) (mlen : wordAddr addr ≠ 0x00C) (plen : wordAddr addr ≠ 0x010)
    (buf : wordAddr addr < 2 ^ 31 ∨ 2 ^ 31 + s.bufCap ≤ wordAddr addr) : step s = .next s.popped := by
  have outside : ¬(2 ^ 31 ≤ wordAddr addr ∧ wordAddr addr < 2 ^ 31 + s.popped.bufCap) := by
    rw [State.popped_bufCap]; omega
  rw [step_write event, hostWrite_idle (by exact idle), if_neg cmd, if_neg mlen, if_neg plen, if_neg outside]

end
end

/-- Settles O13: a lemma per place in the address map; in BUF the bytes are those of the stored word. -/
theorem hostWriteFollowsTheAddressMap : Obligations.HostWriteFollowsTheAddressMap := by
  intro s addr v event
  refine ⟨step_write_busy event, fun idle => ⟨fun cmd => ?_, step_write_mlen event idle, step_write_plen event idle,
    fun low high => ?_, step_write_elsewhere event idle⟩⟩
  · rw [step_write_cmd event idle cmd]
    exact ⟨fun _ => commandAccept_of_ok, fun _ => commandAccept_of_error⟩
  · refine ⟨_, step_write_buf event idle low high, rfl, fun k inside => ?_,
      Memory.byteAt?_setBytes_outside s.buf _ (be32Bytes v)⟩
    exact (State.storeBytes_inside _ _ k (be32Bytes v) inside).trans (congrArg some (be32Bytes_getElem v k inside))

/-! ### Reads -/

/-- A read that meets no reserved ERRCODE in STATUS returns the value at its address. -/
theorem step_read_next {s : State} {addr : Word} (event : s.nextEvent = .bus (.read addr))
    (defined : wordAddr addr = 0x008 → s.errcode.toNat ≤ 1) :
    step s = .next (s.popped.reply addr (hostReadValue addr s.popped)) :=
  (step_read event).trans (hostRead_next defined)

theorem step_read_buf {s : State} {addr : Word} (event : s.nextEvent = .bus (.read addr)) (low : 2 ^ 31 ≤ wordAddr addr)
    (high : wordAddr addr < 2 ^ 31 + s.bufCap) :
    step s = .next (s.popped.reply addr (s.popped.bufWord (wordAddr addr - 2 ^ 31))) := by
  rw [step_read_next event (by omega), hostReadValue_buf low (by exact high)]

/-- The offsets with no register, and the addresses past the registers and outside BUF, read 0 (10_state.md R38). -/
theorem hostReadValue_unmapped {s : State} {addr : Word}
    (unmapped : wordAddr addr = 0x038 ∨ wordAddr addr = 0x03C ∨ (0x054 ≤ wordAddr addr ∧ wordAddr addr < 2 ^ 31) ∨
      2 ^ 31 + s.bufCap ≤ wordAddr addr) : hostReadValue addr s = 0 := by
  refine hostReadValue_none (fun r found => ?_) (by omega)
  have low := r.offset_lt
  have gap : r.offset.toNat ≠ 0x038 ∧ r.offset.toNat ≠ 0x03C := by cases r <;> decide
  omega

/-- Settles O14: at each offset the value is the register's; STATUS, RCNT and CAP are read as numbers. -/
theorem hostReadReturnsTheValueAndChangesNothing : Obligations.HostReadReturnsTheValueAndChangesNothing := by
  intro s addr event defined
  have reg (r : Reg) (at_r : wordAddr addr = r.offset.toNat) : hostReadValue addr s.popped = r.value s.popped :=
    hostReadValue_reg r at_r s.popped
  refine ⟨_, _, step_read_next event defined, rfl, rfl, reg .id, reg .cmd, fun status => ?_, reg .mlen, reg .plen,
    reg .nblk, reg .blkidx, fun rcnt => ?_, reg .h0, reg .h1, reg .h2, reg .h3, reg .h4, fun cap small => ?_, reg .a,
    reg .b, reg .c, reg .d, reg .e, hostReadValue_unmapped, fun low high => ?_⟩
  · rw [reg .status status]
    exact s.popped.statusWord_toNat
  · rw [reg .rcnt rcnt]
    exact BitVec.toNat_setWidth_of_le (by decide)
  · rw [reg .cap cap]
    exact Nat.mod_eq_of_lt small
  · rw [hostReadValue_buf (s := s.popped) low high]
    obtain ⟨b, sum, specified⟩ := s.popped.bufWord_bytes (wordAddr addr - 2 ^ 31)
    exact ⟨b, sum, fun k x _ => specified k x⟩

/-! ### Address bits 1:0 (20_memory.md R65) -/

section
variable {s : State} {addr addr' : Word} (same : addr.toNat / 4 = addr'.toNat / 4)
include same

theorem hostRead_congr : hostRead addr s = hostRead addr' s := by
  simp only [hostRead, hostReadValue, State.reply, alignWord_congr same]

theorem hostWrite_congr (run : Instr → State → Result) (v : Word) :
    hostWrite run addr v s = hostWrite run addr' v s := by
  simp only [hostWrite, alignWord_congr same]

end

/-- Settles O16: an access uses its address only through the address of the word, and meets no fault. -/
theorem lowAddressBitsAreIgnored : Obligations.LowAddressBitsAreIgnored := fun _ _ _ v _ same defined =>
  ⟨hostRead_congr same, hostWrite_congr same exec v, ⟨_, step_read_next rfl fun _ => defined⟩, hostWrite_safe _ _ v⟩

/-- Settles O17: the read meets the bytes of the stored word in BUF. -/
theorem writtenBufWordReadsBack : Obligations.WrittenBufWordReadsBack := by
  intro s addr addr' v rest idle agenda same low high
  have write := step_write_buf (s := s) (v := v) (by rw [State.nextEvent, agenda]; rfl) idle low high
  rw [wordAddr_congr same] at low high write
  have read := step_read_buf (s := s.popped.storeBytes (wordAddr addr' - 2 ^ 31) (be32Bytes v))
    (by simp [State.nextEvent, agenda]) low high
  refine ⟨_, (run_step write rfl).trans (run_step read rfl), ?_, by simp [agenda]⟩
  exact congrArg (· :: s.replies) (s.popped.popped.bufWord_storeBytes (wordAddr addr' - 2 ^ 31) v)

/-! ### The canonical form of BUF -/

theorem StepCase.buf_wf {s t : State} (c : StepCase s t) (h : s.buf.wf) : t.buf.wf := by
  cases c with
  | reset => subst t; exact .nil
  | buf | padChained | padAlone => subst t; exact Memory.setBytes_wf h ..
  | _ => subst t; exact h

/-- Settles O37: the cases of a step that write BUF are reset, a host write in BUF and uop.PAD. -/
theorem everyStepKeepsBufCanonical : Obligations.EveryStepKeepsBufCanonical := fun _ _ h next =>
  (step_cases next).buf_wf h

end Sys2Proof.Machine
end

/-! ## Decoding and encoding (30_encoding.md R90 to R96) -/
section
namespace Sys2Proof

open Machine

theorem decode_encode (i : Instr) : decode (encode i) = .ok i := by cases i <;> rfl

theorem decode_phase_reserved {p : BitVec 4} (reserved : 6 ≤ p.toNat) :
    decode (.phase p) = .error .reservedPhase := by
  revert p; decide

/-- Settles O1: the fields RSV and OP name one of the four words exactly when the word, as a number, is that one. -/
theorem commandWordDecodesExactlyWhenListed : Obligations.CommandWordDecodesExactlyWhenListed := by
  intro v i
  rw [decode, decodeCommand_eq]
  split_ifs with nop pad compute hash <;> simp [*, eq_comm (b := i)]

/-- A code that names an instruction is the one its table lists: a word of R91 or a PHASE of R95. -/
theorem eq_encode_of_decode {c : Code} {i : Instr} (h : decode c = .ok i) : c = encode i := by
  cases c with
  | cmd v =>
    obtain ⟨word, rfl⟩ | ⟨word, rfl⟩ | ⟨word, rfl⟩ | ⟨word, rfl⟩ := (commandWordDecodesExactlyWhenListed v i).1 h
    all_goals exact congrArg Code.cmd (BitVec.eq_of_toNat_eq word)
  | phase p =>
    obtain rfl | rfl | rfl | rfl | rfl | rfl | reserved := phase_cases p
    · cases h
    · cases h; rfl
    · cases h; rfl
    · cases h; rfl
    · cases h; rfl
    · cases h; rfl
    · cases (decode_phase_reserved reserved).symm.trans h

/-- Settles O3: every instruction's code decodes to it, and no other code does. -/
theorem decodeEncodeAgree : Obligations.DecodeEncodeAgree := fun _ i =>
  ⟨eq_encode_of_decode, fun h => h ▸ decode_encode i⟩

/-- Settles O2: the sixteen values of PHASE, one by one. -/
theorem phaseCodeSelectsMicroOperation : Obligations.PhaseCodeSelectsMicroOperation := by
  unfold Obligations.PhaseCodeSelectsMicroOperation
  decide

/-- Settles O4: each word is evaluated. -/
theorem sampleWordsDecode : Obligations.SampleWordsDecode :=
  ⟨rfl, rfl, rfl, rfl, rfl, rfl, rfl, rfl, rfl⟩

/-- Settles O8: taking the event off the agenda leaves PHASE as it is. -/
theorem reservedPhaseStopsTheEngine : Obligations.ReservedPhaseStopsTheEngine := fun _ reserved event =>
  (step_engine event).trans (engineStep_reserved (by exact reserved))

end Sys2Proof
end

/-! ## LOADMSG: the message, word by word, into BUF, and its length into MLEN (30_encoding.md R99) -/
section
namespace Sys2Proof.Machine

/-! ### The words of a message -/

theorem packWords_length (m : List Byte) : (packWords m).length = (m.length + 3) / 4 := by
  induction m using packWords.induct with
  | case5 b0 b1 b2 b3 rest ih => simp only [packWords, List.length_cons, ih]; omega
  | _ => simp [packWords]

/-- The bytes of the words are the message and the zeros that fill its last word. -/
theorem message_begins_packWords (m : List Byte) : m <+: (packWords m).flatMap be32Bytes := by
  induction m using packWords.induct with
  | case5 b0 b1 b2 b3 rest ih => simpa [packWords, be32Bytes_be32] using ih
  | _ => simp [packWords, be32Bytes_be32]

theorem length_flatMap_be32Bytes (ws : List Word) : (ws.flatMap be32Bytes).length = 4 * ws.length := by
  simp [List.length_flatMap, Nat.mul_comm]

/-! ### The writes to BUF -/

theorem Memory.setBytes_append (m : Memory) (i : Nat) (bs cs : List Byte) :
    m.setBytes i (bs ++ cs) = (m.setBytes i bs).setBytes (i + bs.length) cs := by
  induction bs generalizing m i with
  | nil => rfl
  | cons b bs ih => rw [List.cons_append, setBytes, ih, setBytes, List.length_cons, Nat.add_assoc, Nat.add_comm 1]

theorem State.storeBytes_append (s : State) (i : Nat) (bs cs : List Byte) :
    s.storeBytes i (bs ++ cs) = (s.storeBytes i bs).storeBytes (i + bs.length) cs := by
  rw [storeBytes, Memory.setBytes_append]; rfl

theorem wordAddr_bufAddr {j : Nat} (aligned : j % 4 = 0) (inside : j < 2 ^ 31) :
    wordAddr (bufAddr j) = 2 ^ 31 + j := by
  have value : (bufAddr j).toNat = 2 ^ 31 + j := Nat.mod_eq_of_lt (by simp only [Config.bufBase]; omega)
  rw [wordAddr, value]
  omega

theorem busEvents_loadWords_cons (j : Nat) (v : Word) (vs : List Word) :
    busEvents (loadWords j (v :: vs)) = .bus (.write (bufAddr j) v) :: busEvents (loadWords (j + 4) vs) := rfl

theorem busEvents_loadMsg (m : List Byte) :
    busEvents (loadMsg m) = busEvents (loadWords 0 (packWords m)) ++
      [.bus (.write (Reg.offset .mlen) (BitVec.ofNat 32 m.length))] := List.filterMap_append

/-- The word writes of a LOADMSG, run on an idle core with room for them, store the words' bytes in order. -/
theorem run_loadWords {s : State} {j : Nat} {ws : List Word} {rest : List Event} (idle : s.phase = 0#4)
    (cap : s.bufCap ≤ 2 ^ 31) (aligned : j % 4 = 0) (fits : j + 4 * ws.length ≤ s.bufCap)
    (agenda : s.agenda = busEvents (loadWords j ws) ++ rest) :
    run ws.length s = .next ((s.storeBytes j (ws.flatMap be32Bytes)).withAgenda rest) := by
  induction ws generalizing s j with
  | nil => obtain rfl : s.agenda = rest := agenda; rfl
  | cons v ws ih =>
    rw [busEvents_loadWords_cons, List.cons_append] at agenda
    rw [List.length_cons] at fits
    have addr := wordAddr_bufAddr aligned (by omega : j < 2 ^ 31)
    have write := step_write_buf (by rw [State.nextEvent, agenda]; rfl) idle (addr ▸ Nat.le_add_right _ j) (by omega)
    rw [addr, Nat.add_sub_cancel_left] at write
    have loaded := ih (s := s.popped.storeBytes j (be32Bytes v)) (j := j + 4) idle cap (by omega)
      (by rw [State.storeBytes_bufCap, State.popped_bufCap]; omega) (by simp [agenda])
    rw [List.length_cons, run_step write rfl, loaded, List.flatMap_cons, State.storeBytes_append]
    rfl

/-! ### The message and its length -/

theorem State.holds_storeBytes (s : State) {m bs : List Byte} (pre : m <+: bs) : (s.storeBytes 0 bs).Holds m := by
  intro i inside
  have stored := s.storeBytes_inside 0 i bs (inside.trans_le pre.length_le)
  rwa [Nat.zero_add, ← pre.getElem inside] at stored

/-- Settles O49: the writes to BUF, then the write to MLEN. -/
theorem loadMsgStoresTheMessage : Obligations.LoadMsgStoresTheMessage := by
  intro s m inv idle fits agenda
  obtain ⟨blocks, -, cap⟩ := inv.capLegal
  have len := packWords_length m
  have value : (BitVec.ofNat 32 m.length).toNat = m.length := Nat.mod_eq_of_lt (by omega)
  have words := run_loadWords idle cap (Nat.zero_mod 4) (by omega) (agenda.trans (busEvents_loadMsg m))
  have bytes := length_flatMap_be32Bytes (packWords m)
  refine ⟨_, (run_add words (congrArg (· + 1) len.symm)).trans (run_step (k := 0) (step_write_mlen rfl idle rfl) rfl),
    by simp, by simp [fits, value], ?_, by simpa using idle, by simp, by simp, by simp, by simp, fun i outside => ?_⟩
  · simpa [State.Holds] using s.holds_storeBytes (message_begins_packWords m)
  · simpa using Memory.byteAt?_setBytes_outside s.buf 0 _ i (.inr (by omega))

end Sys2Proof.Machine
end

/-! ## POLL: a read of STATUS and a branch on BUSY (30_encoding.md R98, R99) -/
section
namespace Sys2Proof.Machine

/-! ### The read of STATUS -/

theorem State.statusWord_busy (s : State) : s.statusWord.toNat % 2 = if s.phase = 0#4 then 0 else 1 := by
  rw [State.statusWord_toNat]
  split <;> omega

/-- STATUS lies below BUF, so its read uses up no draw. -/
theorem State.reply_status (s : State) (v : Word) :
    s.reply (Reg.offset .status) v = { s with replies := v :: s.replies } := by
  have outside : s.inBuf (alignWord (Reg.offset .status)) = false := rfl
  rw [State.reply, outside]
  rfl

/-- An event put before the inputs to come is performed on the state as it was. -/
theorem step_withAgenda_cons (s : State) (e : Event) : step (s.withAgenda (e :: s.agenda)) = performEvent exec e s :=
  rfl

theorem step_read_status {s : State} (defined : s.errcode.toNat ≤ 1) :
    step (s.withAgenda (.bus (.read (Reg.offset .status)) :: s.agenda)) =
      .next { s with replies := s.statusWord :: s.replies } := by
  rw [step_withAgenda_cons, performEvent, hostAccess, hostRead_next fun _ => defined, hostReadValue_reg .status rfl,
    State.reply_status]
  rfl

/-! ### The host's lines -/

namespace HostRun

/-- A name has the value bound to it last (log 9). -/
theorem value?_of_bound {r : HostRun} {name : Nat} {v : Word} {older : List (Nat × Word)}
    (newest : r.bound = (name, v) :: older) : r.value? name = some v := by
  simp [value?, newest]

variable {r : HostRun} (running : r.aborted = false)
include running

theorem hostTurn_label {l : Nat} (line : r.program[r.line]? = some (.label l)) :
    r.hostTurn = .next { r with line := r.line + 1 } := by
  simp [hostTurn, running, line]

theorem hostTurn_rd {addr : Word} {name : Nat} {t : State} (line : r.program[r.line]? = some (.rd addr name))
    (read : step (r.core.withAgenda (.bus (.read addr) :: r.core.agenda)) = .next t) :
    r.hostTurn = .next { r with
      core := t
      line := r.line + 1
      bound := (name, t.replies.headD 0) :: r.bound
      trace := ⟨.R, addr, t.replies.headD 0⟩ :: r.trace } := by
  simp [hostTurn, running, line, perform, read]

theorem hostTurn_br {name hi lo l k : Nat} {v : Word} (line : r.program[r.line]? = some (.br name hi lo l))
    (value : r.value? name = some v) (target : r.target? l = some k) :
    r.hostTurn = .next { r with line := if bits v hi lo = 0 then r.line + 1 else k } := by
  simp [hostTurn, running, line, value, target]

end HostRun

/-- Settles O50: the label, the read of STATUS and the branch on bit 0, which is BUSY. -/
theorem pollLoopsExactlyWhileBusy : Obligations.PollLoopsExactlyWhileBusy := by
  intro r fresh n defined _ running lines target
  have busy := r.core.statusWord_busy
  refine ⟨_, _, _, r.core.statusWord, HostRun.hostTurn_label running (lines 0 (by decide)),
    HostRun.hostTurn_rd (by exact running) (lines 1 (by decide)) (step_read_status defined),
    HostRun.hostTurn_br (by exact running) (lines 2 (by decide)) (HostRun.value?_of_bound rfl) target,
    running, HostRun.value?_of_bound rfl, rfl, ?_, ?_, rfl⟩
  · rw [BitVec.getLsbD, Nat.testBit_zero, busy]
    split <;> simp [*]
  · simp [HostRun.bits, busy]

end Sys2Proof.Machine
end

/-! ## The padder and the check of the padded length (40_padder.md R110 to R118) -/
section
namespace Sys2Proof.Machine

/-! ### The lengths -/

/-- Settles O19: each clause is linear arithmetic on the remainders modulo 64 in the formula. -/
theorem fillerIsTheLeastAligningCount : Obligations.FillerIsTheLeastAligningCount := by
  intro len
  have formula : fillerCount len = (119 - len % 64) % 64 := rfl
  refine ⟨?_, ?_, ?_, fun z aligned => ?_, fun least => ?_, fun most => ?_⟩ <;> omega

/-- The padded length in blocks (40_padder.md R114). -/
theorem paddedLength_div (len : Nat) : paddedLength len / 64 = (len + 8) / 64 + 1 := by
  unfold paddedLength fillerCount; omega

theorem padMessage_length (m : List Byte) : (padMessage m).length = paddedLength m.length :=
  List.length_append.trans (padTail_length m.length)

theorem padMessage_marker (m : List Byte) : (padMessage m)[m.length]? = some 0x80#8 := by
  rw [padMessage, List.getElem?_append_right (Nat.le_refl _), Nat.sub_self, padTail_marker]

/-- The eight bytes of a 64-bit value, read big-endian, are that value (00_scope.md R10, R11). -/
theorem foldl_be64Bytes (v : BitVec 64) : (be64Bytes v).foldl (fun n b => 256 * n + b.toNat) 0 = v.toNat := by
  have := v.isLt
  simp [be64Bytes, Nat.shiftRight_eq_div_pow]
  omega

/-- The padded message ends with the trailer (40_padder.md R113). -/
theorem padMessage_drop (m : List Byte) :
    (padMessage m).drop ((padMessage m).length - 8) = be64Bytes (bitLength m.length) := by
  have parts : padMessage m = (m ++ 0x80#8 :: List.replicate (fillerCount m.length) 0x00#8) ++
      be64Bytes (bitLength m.length) := by
    simp [padMessage, padTail_cons]
  rw [parts]
  exact List.drop_left' (by simp; omega)

/-- Settles O20: the lengths and the number of blocks by arithmetic on the padded length, the bytes by the three parts. -/
theorem paddedMessageLaws : Obligations.PaddedMessageLaws := by
  intro m
  have len := padMessage_length m
  have sum : paddedLength m.length = m.length + 9 + fillerCount m.length := rfl
  have filler := fillerCount_lt m.length
  have aligned := paddedLength_mod m.length
  have blocks := paddedLength_div m.length
  refine ⟨len, ?_, ?_, ?_, ?_, ?_, List.take_left, padMessage_marker m, ?_, fun small => ?trailer⟩
  case trailer => rw [padMessage_drop, foldl_be64Bytes, bitLength_toNat small]
  all_goals omega

/-! ### uop.PAD -/

section
variable (s : State)

theorem State.padded_plen_toNat (fits : paddedLength s.mlen.toNat ≤ 2 ^ 31) :
    s.padded.plen.toNat = paddedLength s.mlen.toNat := Nat.mod_eq_of_lt (fits.trans_lt (by decide))

theorem State.padded_byteAt?_tail {k : Nat} {b : Byte} (tail : (padTail s.mlen.toNat)[k]? = some b) :
    s.padded.buf.byteAt? (s.mlen.toNat + k) = some b := by
  obtain ⟨inside, rfl⟩ := List.getElem?_eq_some_iff.1 tail
  exact Memory.byteAt?_setBytes_inside s.buf s.mlen.toNat (padTail s.mlen.toNat) k inside

theorem State.padded_byteAt?_trailer {k : Nat} (inside : k < 8) :
    s.padded.buf.byteAt? (s.mlen.toNat + (1 + fillerCount s.mlen.toNat + k)) =
      some (BitVec.ofNat 8 (8 * s.mlen.toNat / 256 ^ (7 - k))) := by
  have small : 8 * s.mlen.toNat < 2 ^ 64 := by have := s.mlen.isLt; omega
  refine s.padded_byteAt?_tail ((padTail_trailer _ k).trans ?_)
  rw [List.getElem?_eq_getElem (by simpa using inside), be64Bytes_getElem _ k inside, bitLength_toNat small]

theorem State.padded_byteAt?_outside {i : Nat} (outside : i < s.mlen.toNat ∨ paddedLength s.mlen.toNat ≤ i) :
    s.padded.buf.byteAt? i = s.buf.byteAt? i :=
  Memory.byteAt?_setBytes_outside _ _ _ i ((padTail_length s.mlen.toNat).symm ▸ outside)

end

/-- Settles O18: the padded length fits, the tail's bytes are those of its three parts, and CHAIN chooses what comes next. -/
theorem padMicroOperation : Obligations.PadMicroOperation := by
  rintro s _ _ aligned cap legal rfl rfl
  have fits : paddedLength s.mlen.toNat ≤ s.bufCap := paddedLength_le legal aligned
  have next := execUopPad_fits fits
  have plen := s.padded_plen_toNat (fits.trans cap)
  have marker := s.padded_byteAt?_tail (padTail_marker s.mlen.toNat)
  have filler k (h : k < fillerCount s.mlen.toNat) := s.padded_byteAt?_tail (padTail_filler h)
  have trailer k (h : k < 8) := s.padded_byteAt?_trailer h
  have outside i := s.padded_byteAt?_outside (i := i)
  simp only [← Nat.add_assoc] at filler trailer
  by_cases chain : s.chain = true
  · rw [if_pos chain] at next
    exact ⟨_, next, fits, plen, marker, filler, trailer, outside, fun _ => ⟨rfl, rfl, rfl⟩,
      fun alone => absurd chain (Bool.eq_false_iff.1 alone), rfl⟩
  · rw [if_neg chain] at next
    exact ⟨_, next, fits, plen, marker, filler, trailer, outside, fun chained => absurd chained chain,
      fun alone => ⟨alone, rfl, rfl⟩, rfl⟩

/-- A block write done twice is the block write done once. -/
theorem Memory.setBytes_setBytes {m : Memory} (h : m.wf) (i : Nat) (bs : List Byte) :
    (m.setBytes i bs).setBytes i bs = m.setBytes i bs := by
  have once := setBytes_wf h i bs
  refine ext_of_byteAt? (setBytes_wf once i bs) once fun k => ?_
  simp only [byteAt?_setBytes]
  split <;> rfl

/-- What a PAD that completes leaves in the elements that the next PAD uses or writes, with or without CHAIN. -/
theorem mlen_buf_plen_of_execUopPad {s t : State} (h : execUopPad s = .next t) :
    t.mlen = s.mlen ∧ t.buf = s.padded.buf ∧ t.plen = s.padded.plen := by
  rcases Nat.lt_or_ge s.bufCap (paddedLength s.mlen.toNat) with overrun | fits
  · cases (execUopPad_overrun overrun).symm.trans h
  · obtain rfl := Host.Outcome.next.inj ((execUopPad_fits fits).symm.trans h)
    split <;> exact ⟨rfl, rfl, rfl⟩

/-- Settles O21: the second PAD finds the same MLEN, so it stores the same bytes at the same place. -/
theorem paddingTwiceIsPaddingOnce : Obligations.PaddingTwiceIsPaddingOnce := by
  intro s t u canonical first second
  obtain ⟨mlen, buf, plen⟩ := mlen_buf_plen_of_execUopPad first
  obtain ⟨-, buf', plen'⟩ := mlen_buf_plen_of_execUopPad second
  have len : t.messageLength = s.messageLength := congrArg BitVec.toNat mlen
  constructor
  · rw [buf', State.padded_buf, len, buf]
    exact Memory.setBytes_setBytes canonical _ _
  · rw [plen', State.padded_plen, len, plen, State.padded_plen]

/-! ### uop.CHECK -/

/-- Settles O23: PLEN is misaligned, 0, or a positive number of blocks. -/
theorem checkMicroOperation : Obligations.CheckMicroOperation := by
  intro s
  refine ⟨execUopCheck_misaligned, fun aligned => ?_⟩
  have count := s.loadIv_nblk_toNat
  by_cases empty : s.plen = 0#32
  · exact ⟨_, execUopCheck_empty (congrArg BitVec.toNat empty), count, rfl, rfl, fun _ => ⟨rfl, rfl⟩,
      fun blocks => absurd empty blocks, rfl⟩
  · exact ⟨_, execUopCheck_blocks aligned (mt (BitVec.eq_of_toNat_eq (y := 0#32)) empty), count, rfl, rfl,
      fun none => absurd none empty, fun _ => ⟨rfl, rfl⟩, rfl⟩

end Sys2Proof.Machine
end

/-! ## The message schedule (41_schedule.md R130 to R133) -/
section
namespace Sys2Proof.Machine

/-! ### The words as a list, newest first -/

theorem extendSchedule_add (m n : Nat) (ws : List Word) :
    extendSchedule (n + m) ws = extendSchedule m (extendSchedule n ws) := by
  induction n generalizing ws with
  | zero => rw [Nat.zero_add, extendSchedule]
  | succ n ih => rw [Nat.add_right_comm, extendSchedule, ih, extendSchedule]

/-- The newest of n + 1 words is the recurrence's value on the list of n. -/
theorem extendSchedule_succ (n : Nat) (ws : List Word) :
    extendSchedule (n + 1) ws = nextScheduleWord (extendSchedule n ws) :: extendSchedule n ws :=
  extendSchedule_add 1 n ws

/-- The recurrence looks back sixteen words and no further (41_schedule.md R131). -/
theorem nextScheduleWord_take (ws : List Word) : nextScheduleWord (ws.take 16) = nextScheduleWord ws := by
  simp [nextScheduleWord, List.getD_eq_getElem?_getD]

/-- The sliding window holds the sixteen newest words (41_schedule.md R133). -/
theorem slideWindow_eq_take {win : List Word} (full : win.length = 16) (n : Nat) :
    slideWindow win n = (extendSchedule n win).take 16 := by
  induction n with
  | zero => exact (List.take_of_length_le full.le).symm
  | succ n ih =>
    rw [slideWindow, ih, nextScheduleWord_take, extendSchedule_succ, List.take_succ_cons, List.take_succ_cons,
      List.take_take]
    rfl

/-! ### The words as W[0..79] -/

section
variable (word : Nat → Word)

/-- When n words follow the block's sixteen, the newest is W[15 + n], and the word at place j is j before it. -/
theorem extendSchedule_getElem?_blockWords {n j t : Nat} (last : n ≤ 64) (place : t + j = 15 + n) :
    (extendSchedule n (blockWords word))[j]? = some ((schedule word)[t]'(by omega)) := by
  have split : extendSchedule 64 (blockWords word) = extendSchedule (64 - n) (extendSchedule n (blockWords word)) := by
    rw [← extendSchedule_add, Nat.add_sub_cancel' last]
  rw [schedule_getElem word (by omega), ← List.getElem?_eq_getElem, show 79 - t = 64 - n + j by omega,
    ← List.getElem?_drop, split, extendSchedule_drop]

/-- W[0..15] are the words of the block (41_schedule.md R130). -/
theorem schedule_block {k : Nat} (hk : k < 16) : (schedule word)[k] = word k := by
  have stored := extendSchedule_getElem?_blockWords word (n := 0) (j := 15 - k) (t := k) (by decide) (by omega)
  have given : (blockWords word)[15 - k]? = some (word k) := by
    rw [blockWords, List.getElem?_map, List.getElem?_reverse (by simp; omega), List.length_range,
      show 16 - 1 - (15 - k) = k by omega, List.getElem?_range hk, Option.map_some]
  exact Option.some.inj (stored.symm.trans given)

/-- Each later word is the recurrence's value on the list of the words before it. -/
theorem schedule_next {n : Nat} (hn : n < 64) :
    (schedule word)[16 + n] = nextScheduleWord (extendSchedule n (blockWords word)) := by
  have newest := extendSchedule_getElem?_blockWords word (n := n + 1) (j := 0) (t := 16 + n) hn (by omega)
  rw [extendSchedule_succ] at newest
  exact (Option.some.inj newest).symm

/-- The recurrence on W itself (41_schedule.md R131). -/
theorem schedule_recurrence {k : Nat} (hk : 16 ≤ k ∧ k < 80) :
    (schedule word)[k] = ((schedule word)[k - 3] ^^^ (schedule word)[k - 8] ^^^ (schedule word)[k - 14] ^^^
      (schedule word)[k - 16]).rotateLeft 1 := by
  obtain ⟨n, rfl⟩ := Nat.exists_eq_add_of_le hk.1
  have before (j : Nat) (hj : j < 16) :
      (extendSchedule n (blockWords word)).getD j 0 = (schedule word)[16 + n - (j + 1)] := by
    rw [List.getD_eq_getElem?_getD,
      extendSchedule_getElem?_blockWords word (t := 16 + n - (j + 1)) (by omega) (by omega), Option.getD_some]
  rw [schedule_next word (by omega), nextScheduleWord, before 2 (by decide), before 7 (by decide), before 13 (by decide),
    before 15 (by decide), rotl32_eq_rotateLeft _ 1 (by decide)]

end

/-- Settles O26: the window holds the sixteen newest of the stored words, and the recurrence reads no others. -/
theorem slidingWindowGivesTheSameWords : Obligations.SlidingWindowGivesTheSameWords := by
  intro word n hn
  rw [schedule_next word hn, slideWindow_eq_take (blockWords_length word), nextScheduleWord_take]

/-! ### uop.SCHED -/

/-- Settles O24: the bytes are those that the model reads from BUF; W is their schedule, so R130 and R131 hold of it. -/
theorem schedMicroOperation : Obligations.SchedMicroOperation := by
  intro s fits
  refine ⟨s.scheduled.drawn.goto 4#4, fun j => s.bufByte (64 * s.blkidx.toNat + j), execUopSched_fits fits,
    fun _ _ _ specified => State.bufByte_of_some specified, fun k hk => ?words,
    fun k hk => schedule_recurrence _ hk, rfl, rfl, rfl, rfl⟩
  case words =>
    have word : (s.scheduled.drawn.goto 4#4).w[k] = s.bufWord (s.blockBase + 4 * k) := schedule_block _ hk
    rw [word, State.bufWord, be32_toNat]
    rfl

end Sys2Proof.Machine
end

/-! ## The rounds (42_rounds.md R140 to R143) -/
section
namespace Sys2Proof.Machine

/-! ### The round function, bit by bit -/

section
variable {t : Nat} (b c d : Word)

theorem roundF_getLsbD_select {i : Nat} (early : t < 20) (bit : i < 32) :
    (roundF t b c d).getLsbD i = if b.getLsbD i then c.getLsbD i else d.getLsbD i := by
  rw [roundF, if_pos early, BitVec.getLsbD_or, BitVec.getLsbD_and, BitVec.getLsbD_and, BitVec.getLsbD_not]
  cases b.getLsbD i <;> simp [bit]

theorem roundF_eq_xor (range : (20 ≤ t ∧ t < 40) ∨ 60 ≤ t) : roundF t b c d = b ^^^ c ^^^ d := by
  unfold roundF
  rcases range with ⟨low, high⟩ | late
  · rw [if_neg (by omega), if_pos high]
  · rw [if_neg (by omega), if_neg (by omega), if_neg (by omega)]

theorem roundF_getLsbD_parity (range : (20 ≤ t ∧ t < 40) ∨ 60 ≤ t) (i : Nat) :
    (roundF t b c d).getLsbD i =
      decide (((b.getLsbD i).toNat + (c.getLsbD i).toNat + (d.getLsbD i).toNat) % 2 = 1) := by
  rw [roundF_eq_xor b c d range, BitVec.getLsbD_xor, BitVec.getLsbD_xor]
  cases b.getLsbD i <;> cases c.getLsbD i <;> cases d.getLsbD i <;> rfl

theorem roundF_getLsbD_majority (range : 40 ≤ t ∧ t < 60) (i : Nat) :
    (roundF t b c d).getLsbD i =
      decide (2 ≤ (b.getLsbD i).toNat + (c.getLsbD i).toNat + (d.getLsbD i).toNat) := by
  rw [roundF, if_neg (by omega), if_neg (by omega), if_pos range.2]
  simp only [BitVec.getLsbD_or, BitVec.getLsbD_and]
  cases b.getLsbD i <;> cases c.getLsbD i <;> cases d.getLsbD i <;> rfl

end

/-- Settles O27: each range of t has its own reading of the formula of R140 at one bit. -/
theorem roundFunctionByBits : Obligations.RoundFunctionByBits := fun _ b c d i _ bit =>
  ⟨fun early => roundF_getLsbD_select b c d early bit, fun range => roundF_getLsbD_parity b c d range i,
    fun range => roundF_getLsbD_majority b c d range i⟩

/-! ### The registers after a round -/

/-- The rotation of 00_scope.md R9 as arithmetic: the low bits move up, the high bits come in below them. -/
theorem rotl32_toNat (x : Word) {n : Nat} (hn : n ≤ 32) :
    (rotl32 x n).toNat = x.toNat * 2 ^ n % 2 ^ 32 + x.toNat / 2 ^ (32 - n) := by
  have split : 2 ^ (32 - n) * 2 ^ n = 2 ^ 32 := by rw [← Nat.pow_add, Nat.sub_add_cancel hn]
  have low : x.toNat * 2 ^ n % 2 ^ 32 = (x.toNat % 2 ^ (32 - n)) <<< n := by
    rw [← split, Nat.mul_mod_mul_right, Nat.shiftLeft_eq]
  have high : x.toNat / 2 ^ (32 - n) < 2 ^ n := Nat.div_lt_of_lt_mul (split ▸ x.isLt)
  rw [rotl32, BitVec.toNat_or, BitVec.toNat_shiftLeft, BitVec.toNat_ushiftRight, Nat.shiftRight_eq_div_pow,
    Nat.shiftLeft_eq, low, Nat.shiftLeft_add_eq_or_of_lt high]

theorem roundK_toNat (t : Nat) :
    (roundK t).toNat = if t < 20 then 0x5A827999 else if t < 40 then 0x6ED9EBA1 else if t < 60 then 0x8F1BBCDC
      else 0xCA62C1D6 := by
  unfold roundK
  split_ifs <;> rfl

theorem roundStep_a_toNat (t : Nat) (w : Word) (x : Working) :
    (roundStep t w x).a.toNat = ((x.a.rotateLeft 5).toNat + (roundF t x.b x.c x.d).toNat + x.e.toNat + w.toNat +
      (roundK t).toNat) % 2 ^ 32 := by
  simp only [roundStep, rotl32_eq_rotateLeft x.a 5 (by decide), BitVec.toNat_add, Nat.mod_add_mod]

/-! ### uop.ROUND -/

@[simp] theorem exec_uopRound (s : State) : exec .uopRound s = execUopRound s := rfl

/-- Settles O28: a round is `roundStep` with W[T] and the next PHASE; A is its sum and C its rotation, as numbers. -/
theorem roundMicroOperation : Obligations.RoundMicroOperation := by
  rintro s k ht rfl
  refine ⟨_, execUopRound_next ht, ?sum, rfl, rotl32_toNat s.work.b (by decide), rfl, rfl, t_succ_toNat ht, rfl, rfl⟩
  case sum => rw [← roundK_toNat]; exact roundStep_a_toNat _ _ _

/-- Settles O29: uop.ROUND compares T with 80 first. -/
theorem roundIndexPastTheLastStops : Obligations.RoundIndexPastTheLastStops := by
  intro s past
  rw [exec_uopRound, execUopRound_past past]

end Sys2Proof.Machine
end

/-! ## Engine steps whose effect is certain, and what a step while compressing leaves alone (44_commands.md R181) -/
section
namespace Sys2Proof.Machine

@[simp] theorem exec_uopCheck (s : State) : exec .uopCheck s = execUopCheck s := rfl

@[simp] theorem exec_uopAccum (s : State) : exec .uopAccum s = execUopAccum s := rfl

section
variable {s : State} (event : s.nextEvent = .engine)
include event

theorem step_pad_chained (pad : s.phase = 1#4) (chain : s.chain = true)
    (fits : paddedLength s.mlen.toNat ≤ s.bufCap) : step s = .next s.popped.padded.unchain := by
  rw [step_engine event, engineStep_pad (by exact pad), exec_uopPad, execUopPad_fits (by exact fits),
    if_pos (by exact chain)]

theorem step_check_empty (check : s.phase = 2#4) (empty : s.plen.toNat = 0) :
    step s = .next s.popped.loadIv.complete := by
  rw [step_engine event, engineStep_check (by exact check), exec_uopCheck, execUopCheck_empty (by exact empty)]

theorem step_check_blocks (check : s.phase = 2#4) (aligned : s.plen.toNat % 64 = 0) (nonempty : s.plen.toNat ≠ 0) :
    step s = .next (s.popped.loadIv.goto 3#4) := by
  rw [step_engine event, engineStep_check (by exact check), exec_uopCheck,
    execUopCheck_blocks (by exact aligned) (by exact nonempty)]

theorem step_sched (sched : s.phase = 3#4) (fits : 64 * s.blkidx.toNat + 64 ≤ s.bufCap) :
    step s = .next (s.popped.scheduled.drawn.goto 4#4) := by
  rw [step_engine event, engineStep_sched (by exact sched), exec_uopSched, execUopSched_fits (by exact fits)]

theorem step_round (round : s.phase = 4#4) (index : s.t.toNat < 80) :
    step s = .next ((s.popped.rounded s.w[s.t.toNat]).goto (if s.t.toNat = 79 then 5#4 else 4#4)) := by
  rw [step_engine event, engineStep_round (by exact round), exec_uopRound, execUopRound_next (by exact index)]
  rfl

theorem step_accum_last (accum : s.phase = 5#4) (last : s.blkidx + 1 = s.nblk) :
    step s = .next s.popped.accumulated.complete := by
  rw [step_engine event, engineStep_accum (by exact accum), exec_uopAccum, execUopAccum_last (by exact last)]

theorem step_accum_more (accum : s.phase = 5#4) (more : s.blkidx + 1 ≠ s.nblk) :
    step s = .next (s.popped.accumulated.goto 3#4) := by
  rw [step_engine event, engineStep_accum (by exact accum), exec_uopAccum, execUopAccum_more (by exact more)]

end

/-- Every step takes its event off the agenda. -/
theorem StepCase.agenda_eq {s t : State} (c : StepCase s t) : t.agenda = s.agenda.tail := by
  cases c <;> subst t <;> rfl

/-- The elements that stay as they are from CHECK to the end of a COMPUTE or HASH without error. -/
structure State.SameOperands (s t : State) : Prop where
  bufCap : t.bufCap = s.bufCap
  mlen : t.mlen = s.mlen
  plen : t.plen = s.plen
  chain : t.chain = s.chain
  err : t.err = s.err
  errcode : t.errcode = s.errcode
  buf : t.buf = s.buf

theorem State.SameOperands.refl (s : State) : s.SameOperands s := ⟨rfl, rfl, rfl, rfl, rfl, rfl, rfl⟩

theorem State.SameOperands.trans {s t u : State} (h : s.SameOperands t) (h' : t.SameOperands u) : s.SameOperands u where
  bufCap := h'.bufCap.trans h.bufCap
  mlen := h'.mlen.trans h.mlen
  plen := h'.plen.trans h.plen
  chain := h'.chain.trans h.chain
  err := h'.err.trans h.err
  errcode := h'.errcode.trans h.errcode
  buf := h'.buf.trans h.buf

/-- No step of the host or the engine changes the operands from CHECK on, if PLEN is a multiple of 64. -/
theorem StepCase.sameOperands {s t : State} (c : StepCase s t) (live : s.nextEvent ≠ .reset)
    (compute : 2 ≤ s.phase.toNat) (aligned : s.plen.toNat % 64 = 0) : s.SameOperands t := by
  cases c with
  | reset event => exact absurd event live
  | command _ _ _ phase | mlen _ _ _ phase | plen _ _ _ phase | buf _ _ _ phase | engineIdle _ phase
  | padChained _ phase | padAlone _ phase => exact absurd compute (by simp [phase])
  | checkError _ _ misaligned => exact absurd aligned misaligned
  | _ => subst t; exact ⟨rfl, rfl, rfl, rfl, rfl, rfl, rfl⟩

/-- The command word is presented to the core, and no input is to come. -/
theorem step_of_aboutToRun {s : State} {v : Word} (h : s.AboutToRun v) : step s = commandAccept exec v s.popped :=
  step_write_cmd (by rw [State.nextEvent, h.2]; rfl) h.1 rfl

theorem nextEvent_of_no_agenda {s : State} (h : s.agenda = []) : s.nextEvent = .engine := by
  rw [State.nextEvent, h]; rfl

end Sys2Proof.Machine
end

/-! ## The accumulator, and a compression as a count of the engine steps left (43_accumulator.md R161 to R166) -/
section
namespace Sys2Proof.Machine

/-- Settles O30: the sums are those of words, and BLKIDX + 1 is compared with NBLK. -/
theorem accumMicroOperation : Obligations.AccumMicroOperation := by
  intro s
  have sum (x y : Word) : (x + y).toNat = (x.toNat + y.toNat) % 2 ^ 32 := BitVec.toNat_add x y
  by_cases last : s.blkidx + 1 = s.nblk
  · exact ⟨_, execUopAccum_last last, sum _ _, sum _ _, sum _ _, sum _ _, sum _ _, sum _ _, fun _ => ⟨rfl, rfl⟩,
      fun more => absurd last more, rfl⟩
  · exact ⟨_, execUopAccum_more last, sum _ _, sum _ _, sum _ _, sum _ _, sum _ _, sum _ _,
      fun equal => absurd equal last, fun _ => ⟨rfl, rfl⟩, rfl⟩

/-! ### The working registers of a block -/

section
variable (b : Nat → Byte) (i : Nat)

/-- A..E of block i before round t: the first t rounds from the digest of the blocks before it (42_rounds.md R145). -/
def roundsOfBlock (t : Nat) : Working :=
  runRounds 0 ((schedule (blockWord b i)).toList.take t) (Working.ofDigest (compressBlocks b i))

theorem roundsOfBlock_zero : roundsOfBlock b i 0 = Working.ofDigest (compressBlocks b i) := by
  rw [roundsOfBlock, List.take_zero, runRounds]

theorem roundsOfBlock_succ {t : Nat} (ht : t < 80) :
    roundsOfBlock b i (t + 1) = roundStep t (schedule (blockWord b i))[t] (roundsOfBlock b i t) := by
  rw [roundsOfBlock, runRounds_take_succ _ _ (by rwa [Vector.length_toList]), Vector.getElem_toList, roundsOfBlock]

theorem roundsOfBlock_all : roundsOfBlock b i 80 =
    runRounds 0 (schedule (blockWord b i)).toList (Working.ofDigest (compressBlocks b i)) := by
  rw [roundsOfBlock, List.take_of_length_le Vector.length_toList.le]

/-- ACCUM adds the block's final registers into H (43_accumulator.md R161). -/
theorem compressBlocks_succ : compressBlocks b (i + 1) = (compressBlocks b i).add (roundsOfBlock b i 80) := by
  rw [compressBlocks, compressBlock, roundsOfBlock_all]

end

/-! ### The stages of a compression -/

section
variable (b : Nat → Byte) (n : Nat) (s : State)

/-- PLEN and BUF hold the n blocks of b. -/
structure State.HoldsBlocks : Prop where
  plen : s.plen.toNat = 64 * n
  fits : 64 * n ≤ s.bufCap
  bytes : ∀ j, j < 64 * n → s.buf.byteAt? j = some (b j)

/-- Block i of n is in work, and H holds the digest of the blocks before it (43_accumulator.md R162). -/
structure State.AtBlock (i : Nat) : Prop where
  nblk : s.nblk.toNat = n
  blkidx : s.blkidx.toNat = i
  inside : i < n
  h : s.h = compressBlocks b i

/-- The n blocks are compressed and the core is idle (44_commands.md R187). -/
structure State.Compressed : Prop where
  phase : s.phase = 0#4
  done : s.done = true
  nblk : s.nblk.toNat = n
  blkidx : s.blkidx.toNat = n
  h : s.h = compressBlocks b n
  lastBlock : n ≠ 0 → s.t = 80#7 ∧ s.work = roundsOfBlock b (n - 1) 80

/-- Where a compression of the n blocks of b stands when k engine steps are left: the invariant of R181's sequence. -/
inductive State.Compressing (k : Nat) : Prop where
  | check (phase : s.phase = 2#4) (left : k = 1 + 82 * n)
  | sched (i : Nat) (block : s.AtBlock b n i) (phase : s.phase = 3#4) (left : k = 82 * (n - i))
  | round (i : Nat) (block : s.AtBlock b n i) (phase : s.phase = 4#4) (index : s.t.toNat < 80)
      (w : s.w = schedule (blockWord b i)) (work : s.work = roundsOfBlock b i s.t.toNat)
      (left : k + s.t.toNat + 1 = 82 * (n - i))
  | accum (i : Nat) (block : s.AtBlock b n i) (phase : s.phase = 5#4) (t : s.t = 80#7)
      (work : s.work = roundsOfBlock b i 80) (left : k + 81 = 82 * (n - i))
  | done (compressed : s.Compressed b n) (left : k = 0)

end

section
variable {b : Nat → Byte} {n : Nat} {s : State}

theorem State.HoldsBlocks.of_sameOperands {t : State} (holds : s.HoldsBlocks b n) (same : s.SameOperands t) :
    t.HoldsBlocks b n where
  plen := same.plen ▸ holds.plen
  fits := same.bufCap ▸ holds.fits
  bytes := same.buf ▸ holds.bytes

/-- BUF is read big-endian, as the block's words are (41_schedule.md R130). -/
theorem State.HoldsBlocks.bufWord_eq (holds : s.HoldsBlocks b n) {i k : Nat} (hi : i < n) (hk : k < 16) :
    s.bufWord (64 * i + 4 * k) = blockWord b i k := by
  have byte j (hj : j < 4) : s.bufByte (64 * i + 4 * k + j) = b (64 * i + 4 * k + j) :=
    State.bufByte_of_some (holds.bytes _ (by omega))
  rw [State.bufWord, byte 1 (by decide), byte 2 (by decide), byte 3 (by decide), blockWord]
  exact congrArg (be32 · _ _ _) (byte 0 (by decide))

/-- SCHED expands the words of the block. -/
theorem State.HoldsBlocks.scheduled_w (holds : s.HoldsBlocks b n) (inside : s.blkidx.toNat < n) :
    s.scheduled.w = schedule (blockWord b s.blkidx.toNat) :=
  schedule_congr (List.map_congr_left fun _ hk => holds.bufWord_eq inside (by simpa using hk))

/-- Nothing is left exactly at the end. -/
theorem State.Compressing.compressed (stage : s.Compressing b n 0) : s.Compressed b n := by
  cases stage with
  | done compressed => exact compressed
  | check _ left => omega
  | sched _ block _ left | round _ block _ _ _ _ left | accum _ block _ _ _ left => have := block.inside; omega

/-- Before the end the phase is one of CHECK to ACCUM. -/
theorem State.Compressing.phase_ge {k : Nat} (stage : s.Compressing b n (k + 1)) : 2 ≤ s.phase.toNat := by
  cases stage with
  | done _ left => cases left
  | check phase | sched _ _ phase | round _ _ phase | accum _ _ phase => simp [phase]

/-! ### One engine step -/

section
variable {i k : Nat} (event : s.nextEvent = .engine)
include event

theorem compressing_step_check (holds : s.HoldsBlocks b n) (phase : s.phase = 2#4) (left : k = 82 * n) :
    ∃ t, step s = .next t ∧ t.Compressing b n k := by
  have plen := holds.plen
  have nblk : s.popped.loadIv.nblk.toNat = n := by
    rw [State.loadIv_nblk_toNat, State.popped_plen, plen, Nat.mul_div_cancel_left n (by decide)]
  rcases Nat.eq_zero_or_pos n with rfl | pos
  · exact ⟨_, step_check_empty event phase plen, .done ⟨rfl, rfl, nblk, rfl, rfl, (absurd rfl ·)⟩ left⟩
  · exact ⟨_, step_check_blocks event phase (by omega) (by omega), .sched 0 ⟨nblk, rfl, pos, rfl⟩ rfl left⟩

theorem compressing_step_sched (holds : s.HoldsBlocks b n) (block : s.AtBlock b n i) (phase : s.phase = 3#4)
    (left : k + 1 = 82 * (n - i)) : ∃ t, step s = .next t ∧ t.Compressing b n k := by
  obtain ⟨nblk, rfl, inside, h⟩ := block
  have fits := holds.fits
  have work := (congrArg Working.ofDigest h).trans (roundsOfBlock_zero b s.blkidx.toNat).symm
  exact ⟨_, step_sched event phase (by omega),
    .round s.blkidx.toNat ⟨nblk, rfl, inside, h⟩ rfl (by decide : 0 < 80) (holds.scheduled_w inside) work left⟩

theorem compressing_step_round (block : s.AtBlock b n i) (phase : s.phase = 4#4) (index : s.t.toNat < 80)
    (w : s.w = schedule (blockWord b i)) (work : s.work = roundsOfBlock b i s.t.toNat)
    (left : k + 1 + s.t.toNat + 1 = 82 * (n - i)) : ∃ t, step s = .next t ∧ t.Compressing b n k := by
  have next := t_succ_toNat index
  have worked : (s.popped.rounded s.w[s.t.toNat]).work = roundsOfBlock b i (s.t + 1).toNat := by
    rw [next, roundsOfBlock_succ b i index, ← work]
    simp only [State.rounded_work, State.popped_t, State.popped_work, w]
  refine ⟨_, step_round event phase index, ?_⟩
  by_cases last : s.t.toNat = 79
  · have end_t : s.t + 1 = 80#7 := BitVec.eq_of_toNat_eq (next.trans (congrArg (· + 1) last))
    rw [end_t] at worked
    rw [if_pos last]
    exact .accum i ⟨block.nblk, block.blkidx, block.inside, block.h⟩ rfl end_t worked (by omega)
  · have left' : k + (s.t + 1).toNat + 1 = 82 * (n - i) := by omega
    rw [if_neg last]
    exact .round i ⟨block.nblk, block.blkidx, block.inside, block.h⟩ rfl (next.trans_lt (by omega)) w worked left'

theorem compressing_step_accum (block : s.AtBlock b n i) (phase : s.phase = 5#4) (t : s.t = 80#7)
    (work : s.work = roundsOfBlock b i 80) (left : k + 1 + 81 = 82 * (n - i)) :
    ∃ t, step s = .next t ∧ t.Compressing b n k := by
  obtain ⟨nblk, blkidx, inside, h⟩ := block
  have next : (s.blkidx + 1).toNat = i + 1 := by rw [blkidx_succ_toNat (by omega), blkidx]
  have sum : s.popped.accumulated.h = compressBlocks b (i + 1) := by rw [compressBlocks_succ, ← h, ← work]; rfl
  by_cases last : s.blkidx + 1 = s.nblk
  · obtain rfl : i + 1 = n := by rw [← next, last, nblk]
    exact ⟨_, step_accum_last event phase last,
      .done ⟨rfl, rfl, nblk, next, sum, fun _ => ⟨t, work⟩⟩ (by omega)⟩
  · have more : i + 1 ≠ n := fun e => last (BitVec.eq_of_toNat_eq (by rw [next, nblk, e]))
    exact ⟨_, step_accum_more event phase last, .sched (i + 1) ⟨nblk, next, by omega, sum⟩ rfl (by omega)⟩

/-- An engine step of a compression is one step less to its end. -/
theorem compressing_step (holds : s.HoldsBlocks b n) (stage : s.Compressing b n (k + 1)) :
    ∃ t, step s = .next t ∧ t.Compressing b n k := by
  cases stage with
  | check phase left => exact compressing_step_check event holds phase (by omega)
  | sched i block phase left => exact compressing_step_sched event holds block phase left
  | round i block phase index w work left => exact compressing_step_round event block phase index w work left
  | accum i block phase t work left => exact compressing_step_accum event block phase t work left
  | done _ left => cases left

end

/-- Run to its end, a compression leaves the digest of its blocks in H and keeps its operands (43_accumulator.md R165). -/
theorem run_compressing {k : Nat} (no_input : s.agenda = []) (holds : s.HoldsBlocks b n) (stage : s.Compressing b n k) :
    ∃ t, run k s = .next t ∧ t.Compressed b n ∧ s.SameOperands t := by
  induction k generalizing s with
  | zero => exact ⟨s, run_zero s, stage.compressed, .refl s⟩
  | succ k ih =>
    have event := nextEvent_of_no_agenda no_input
    obtain ⟨u, next, stage'⟩ := compressing_step event holds stage
    have plen := holds.plen
    have same := (step_cases next).sameOperands (by simp [event]) stage.phase_ge (by omega)
    have no_input' : u.agenda = [] := by rw [(step_cases next).agenda_eq, no_input]; rfl
    obtain ⟨t, rest, compressed, same'⟩ := ih no_input' (holds.of_sameOperands same) stage'
    exact ⟨t, (run_step next rfl).trans rest, compressed, same.trans same'⟩

end

/-! ### HASH -/

/-- The padded message as the byte sequence whose blocks `sha1` compresses. -/
abbrev paddedByte (m : List Byte) (i : Nat) : Byte := (padMessage m).getD i 0

section
variable {s : State} {m : List Byte} (holds : s.Holds m) (len : s.mlen.toNat = m.length)
include holds len

/-- uop.PAD completes a message in BUF to its padded form (40_padder.md R110, R115). -/
theorem State.Holds.padded_byteAt? {i : Nat} (inside : i < paddedLength m.length) :
    s.padded.buf.byteAt? i = (padMessage m)[i]? := by
  have length : s.messageLength = m.length := len
  rw [State.padded_buf, length, Memory.byteAt?_setBytes, padTail_length, padMessage]
  rcases Nat.lt_or_ge i m.length with message | tail
  · rw [if_neg (by omega), holds i message, List.getElem?_append_left message, List.getElem?_eq_getElem message]
  · rw [if_pos ⟨tail, inside⟩, List.getElem?_append_right tail]

/-- The padding makes a message a whole number of blocks (40_padder.md R114). -/
theorem State.Holds.padded_holdsBlocks (fits : paddedLength m.length ≤ s.bufCap) (cap : s.bufCap ≤ 2 ^ 31) :
    s.padded.HoldsBlocks (paddedByte m) (paddedLength m.length / 64) := by
  have size : 64 * (paddedLength m.length / 64) = paddedLength m.length :=
    Nat.mul_div_cancel' (Nat.dvd_of_mod_eq_zero (paddedLength_mod m.length))
  rw [← len] at fits
  refine ⟨?_, ?_, fun j inside => ?_⟩
  · rw [s.padded_plen_toNat (fits.trans cap), size, len]
  · rw [State.padded_bufCap, size, ← len]
    exact fits
  · have listed : j < (padMessage m).length := by rw [padMessage_length, ← size]; exact inside
    rw [holds.padded_byteAt? len (size ▸ inside), paddedByte, List.getD_eq_getElem?_getD,
      List.getElem?_eq_getElem listed, Option.getD_some]

end

/-- A HASH is accepted, and its PAD goes on to CHECK (44_commands.md R185). -/
theorem run_hash_pad {s : State} (inv : s.Inv) (start : s.AboutToRun 3) :
    run 2 s = .next (s.popped.accept true 1#4).padded.unchain := by
  have accepted : step s = .next (s.popped.accept true 1#4) := by
    rw [step_of_aboutToRun start, commandAccept_idle (by exact start.1)]; rfl
  have no_input : (s.popped.accept true 1#4).agenda = [] := by simp [start.2]
  have fits : paddedLength s.mlen.toNat ≤ s.bufCap := paddedLength_le inv.mlenLegal inv.capLegal.1
  have padded := step_pad_chained (nextEvent_of_no_agenda no_input) rfl rfl fits
  rw [State.popped_of_no_agenda no_input] at padded
  exact (run_step accepted rfl).trans (run_step padded rfl)

/-- Settles O45: PAD puts the padded message in BUF, and the compression of its blocks gives SHA1(m) by definition. -/
theorem hashComputesSha1 : Obligations.HashComputesSha1 := by
  intro s m inv start len holds
  obtain ⟨blocks, -, cap⟩ := inv.capLegal
  have fits : paddedLength m.length ≤ s.bufCap := paddedLength_le (len ▸ inv.mlenLegal) blocks
  obtain ⟨plen, room, bytes⟩ :=
    State.Holds.padded_holdsBlocks (s := s.popped.accept true 1#4) holds len fits cap
  obtain ⟨t, rest, compressed, same⟩ := run_compressing (s := (s.popped.accept true 1#4).padded.unchain)
    (by simp [start.2]) ⟨plen, room, bytes⟩ (.check rfl rfl)
  have steps : 1 + (2 + 82 * (paddedLength m.length / 64)) = 2 + (1 + 82 * (paddedLength m.length / 64)) := by omega
  have size := paddedLength_mod m.length
  have least := le_paddedLength m.length
  obtain ⟨index, work⟩ := compressed.lastBlock (by omega)
  refine ⟨t, (run_add (run_hash_pad inv start) steps).trans rest, compressed.h, compressed.phase, compressed.done,
    same.err, same.errcode, same.chain, ?plen, compressed.nblk, ?blkidx, index, same.mlen,
    work.trans (roundsOfBlock_all _ _), fun i inside => ?inside, fun i outside => ?outside⟩
  case plen => rw [same.plen, State.unchain_plen, plen]; omega
  case blkidx => exact BitVec.eq_of_toNat_eq (compressed.blkidx.trans compressed.nblk.symm)
  case inside => exact same.buf ▸ holds.padded_byteAt? len inside
  case outside => exact same.buf ▸ s.padded_byteAt?_outside (len ▸ outside)

/-- Settles O46: the H that O45 gives names the message and no other element of the state. -/
theorem digestDependsOnTheMessageAlone : Obligations.DigestDependsOnTheMessageAlone := by
  intro s s' m inv inv' start start' len len' holds holds'
  obtain ⟨t, run_t, h, -, done, -⟩ := hashComputesSha1 s m inv start len holds
  obtain ⟨t', run_t', h', -, done', -⟩ := hashComputesSha1 s' m inv' start' len' holds'
  exact ⟨t, t', run_t, run_t', done, done', h.trans h'.symm⟩

end Sys2Proof.Machine
end

/-! ## The digest string (43_accumulator.md R164) -/
section
namespace Sys2Proof.Machine

/-! ### One digit -/

/-- The sixteen digits as character codes: 48 is '0', 97 is 'a'. -/
theorem hexDigit_toNat : ∀ d < 16, (hexDigit d).toNat = if d < 10 then 48 + d else 97 + (d - 10) := by decide

theorem hexDigit_inj {d d' : Nat} (hd : d < 16) (hd' : d' < 16) (same : hexDigit d = hexDigit d') : d = d' := by
  have codes := congrArg Char.toNat same
  rw [hexDigit_toNat d hd, hexDigit_toNat d' hd'] at codes
  split_ifs at codes <;> omega

/-! ### One word -/

theorem hex8_length (w : Word) : (hex8 w).length = 8 := rfl

/-- Digit k of a word, most significant first. -/
theorem hex8_getElem? (w : Word) {k : Nat} (hk : k < 8) :
    (hex8 w)[k]? = some (hexDigit (w.toNat / 16 ^ (7 - k) % 16)) := by
  have power : [7, 6, 5, 4, 3, 2, 1, 0][k]? = some (7 - k) := by revert k; decide
  rw [hex8, List.getElem?_map, power, Option.map_some]

/-- The digits of a word determine it. -/
theorem hex8_injective : Function.Injective hex8 := by
  intro w w' same
  have digit j (hj : j < 8) : w.toNat / 16 ^ j % 16 = w'.toNat / 16 ^ j % 16 := by
    have at_j := hex8_getElem? w (k := 7 - j) (by omega)
    rw [same, hex8_getElem? w' (by omega), Nat.sub_sub_self (by omega)] at at_j
    exact (hexDigit_inj (Nat.mod_lt _ (by decide)) (Nat.mod_lt _ (by decide)) (Option.some.inj at_j)).symm
  refine BitVec.eq_of_getLsbD_eq fun i hi => ?_
  have bit (x : Word) : (x.toNat / 16 ^ (i / 4) % 16).testBit (i % 4) = x.getLsbD i := by
    rw [show 16 ^ (i / 4) = 2 ^ (4 * (i / 4)) from (Nat.pow_mul 2 4 _).symm, Nat.testBit_mod_two_pow _ 4,
      Nat.testBit_div_two_pow, BitVec.getLsbD]
    simp [Nat.mod_lt, Nat.mod_add_div]
  rw [← bit w, ← bit w', digit (i / 4) (by omega)]

/-! ### The words of a digest in a row -/

/-- Each word has eight places, so digit k of word i stands at place 8i + k. -/
theorem flatMap_hex8_getElem? (ws : List Word) (i : Nat) {k : Nat} (hk : k < 8) :
    (ws.flatMap hex8)[8 * i + k]? = ws[i]?.bind fun w => (hex8 w)[k]? := by
  induction ws generalizing i with
  | nil => rfl
  | cons w ws ih =>
    rw [List.flatMap_cons]
    cases i with
    | zero => rw [List.getElem?_append_left (by rw [hex8_length]; omega), Nat.mul_zero, Nat.zero_add]; rfl
    | succ i =>
      rw [List.getElem?_append_right (by rw [hex8_length]; omega), hex8_length,
        show 8 * (i + 1) + k - 8 = 8 * i + k by omega, ih, List.getElem?_cons_succ]

theorem hexDigest_eq_flatMap (h : Digest) : hexDigest h = [h.h0, h.h1, h.h2, h.h3, h.h4].flatMap hex8 := by
  simp [hexDigest]

theorem hexDigest_injective : Function.Injective hexDigest := by
  intro h h' same
  obtain ⟨same, e4⟩ := List.append_inj' same rfl
  obtain ⟨same, e3⟩ := List.append_inj' same rfl
  obtain ⟨same, e2⟩ := List.append_inj' same rfl
  obtain ⟨e0, e1⟩ := List.append_inj' same rfl
  obtain ⟨⟩ := h
  obtain ⟨⟩ := h'
  simp only [Digest.mk.injEq]
  exact ⟨hex8_injective e0, hex8_injective e1, hex8_injective e2, hex8_injective e3, hex8_injective e4⟩

/-- Settles O31: the string is the five words' digits in a row. -/
theorem digestStringIsFortyDigits : Obligations.DigestStringIsFortyDigits := by
  intro h
  refine ⟨rfl, fun c listed => ?_, fun i k w d _ hk word digit => ?_, fun h' same => hexDigest_injective same⟩
  · obtain ⟨w, -, digit⟩ := List.mem_flatMap.1 (hexDigest_eq_flatMap h ▸ listed)
    obtain ⟨k, -, rfl⟩ := List.mem_map.1 digit
    rw [hexDigit_toNat _ (Nat.mod_lt _ (by decide))]
    split <;> omega
  · rw [hexDigest_eq_flatMap, flatMap_hex8_getElem? _ i hk, word, Option.bind_some, hex8_getElem? w hk,
      Option.map_some, hexDigit_toNat _ (Nat.mod_lt _ (by decide)), digit]

end Sys2Proof.Machine
end

/-! ## Commands and the order of the micro-operations (44_commands.md R180 to R188) -/
section
namespace Sys2Proof.Machine

/-! ### Commands, and steps that run a decoded instruction -/

/-- Settles O9: the word is evaluated, and the meaning of NOP is to answer the state itself. -/
theorem nopChangesNothing : Obligations.NopChangesNothing := ⟨rfl, fun _ => rfl⟩

/-- Settles O10: each of the three meanings is `startCommand` with its own CHAIN and first PHASE. -/
theorem startingCommandsComplete : Obligations.StartingCommandsComplete :=
  ⟨fun _ idle => ⟨startCommand_idle idle, startCommand_idle idle, startCommand_idle idle⟩,
    fun _ busy => ⟨startCommand_busy busy, startCommand_busy busy, startCommand_busy busy⟩⟩

theorem engineStep_of_ok {run : Instr → State → Result} {s : State} {i : Instr} (selected : decode (.phase s.phase) = .ok i) :
    engineStep run s = run i s := by
  rw [engineStep, selected]

/-- Settles O5: the write is presented to the core, or the engine runs what PHASE selects; either on the popped state. -/
theorem stepRunsTheDecodedInstruction : Obligations.StepRunsTheDecodedInstruction :=
  ⟨fun _ _ _ _ event cmd idle defined => (step_write_cmd event idle cmd).trans (commandAccept_of_ok defined),
    fun _ _ event selected => (step_engine event).trans (engineStep_of_ok (by exact selected))⟩

/-- Settles O11: busy, the write is ignored; idle, each word has the effect of command acceptance. -/
theorem commandAcceptance : Obligations.CommandAcceptance := by
  intro s addr v event cmd
  refine ⟨step_write_busy event, fun idle => ?_⟩
  rw [step_write_cmd event idle cmd, commandAccept_idle (by exact idle)]
  match v.toNat with
  | 0 | 1 | 2 | 3 | _ + 4 => rfl

/-- Settles O12: such a word is none of the three that start a command. -/
theorem reservedCommandWordChangesNothing : Obligations.ReservedCommandWordChangesNothing := by
  intro s addr v event cmd reserved
  by_cases idle : s.phase = 0#4
  · rw [step_write_cmd event idle cmd, commandAccept_idle (by exact idle), if_neg (by omega), if_neg (by omega),
      if_neg (by omega)]
  · exact step_write_busy event idle

/-! ### The engine's order -/

theorem State.Inv.padding_fits {s : State} (inv : s.Inv) : paddedLength s.mlen.toNat ≤ s.bufCap :=
  paddedLength_le inv.mlenLegal inv.capLegal.1

/-- The block in work lies inside BUF (10_state.md R40). -/
theorem State.Inv.block_fits {s : State} (inv : s.Inv) (left : s.blkidx.toNat < s.nblk.toNat) :
    64 * s.blkidx.toNat + 64 ≤ s.bufCap := by
  have bound := inv.blockCountBound
  omega

section
variable {s : State} (event : s.nextEvent = .engine)
include event

theorem step_engine_idle (idle : s.phase = 0#4) : step s = .next s.popped :=
  (step_engine event).trans (engineStep_idle (by exact idle))

theorem step_pad_alone (pad : s.phase = 1#4) (alone : s.chain = false) (fits : paddedLength s.mlen.toNat ≤ s.bufCap) :
    step s = .next s.popped.padded.complete := by
  rw [step_engine event, engineStep_pad (by exact pad), exec_uopPad, execUopPad_fits (by exact fits),
    if_neg (by exact Bool.eq_false_iff.1 alone)]

end

/-- Settles O7. -/
theorem idleEngineKeepsAllState : Obligations.IdleEngineKeepsAllState := fun _ idle event => step_engine_idle event idle

section
variable {s t : State} (next : step s = .next t)
include next

/-- A step has one outcome. -/
theorem step_unique {u : State} (h : step s = .next u) : t = u := Host.Outcome.next.inj (next.symm.trans h)

variable (inv : s.Inv) (event : s.nextEvent = .engine)
include event

theorem order_after_check (check : s.phase = 2#4) :
    t.phase = if s.plen.toNat % 64 = 0 ∧ s.plen.toNat ≠ 0 then 3#4 else 0#4 := by
  by_cases aligned : s.plen.toNat % 64 = 0
  · by_cases empty : s.plen.toNat = 0
    · rw [step_unique next (step_check_empty event check empty), if_neg (·.2 empty)]; rfl
    · rw [step_unique next (step_check_blocks event check aligned empty), if_pos ⟨aligned, empty⟩]; rfl
  · rw [step_unique next (step_check_misaligned event check aligned), if_neg (aligned ·.1)]; rfl

include inv

theorem order_after_pad (pad : s.phase = 1#4) : t.phase = if s.chain then 2#4 else 0#4 := by
  by_cases chain : s.chain = true
  · rw [step_unique next (step_pad_chained event pad chain inv.padding_fits), if_pos chain]; rfl
  · rw [step_unique next (step_pad_alone event pad (Bool.eq_false_iff.2 chain) inv.padding_fits), if_neg chain]; rfl

theorem order_after_sched (sched : s.phase = 3#4) : t.phase = 4#4 ∧ t.t = 0#7 ∧ t.blkidx = s.blkidx := by
  obtain ⟨-, -, left⟩ := inv.compressing (.inl sched)
  obtain rfl := step_unique next (step_sched event sched (inv.block_fits left))
  exact ⟨rfl, rfl, rfl⟩

theorem order_after_round (round : s.phase = 4#4) :
    t.t.toNat = s.t.toNat + 1 ∧ t.blkidx = s.blkidx ∧ t.phase = if s.t.toNat = 79 then 5#4 else 4#4 := by
  have index := inv.roundIndexInRound round
  obtain rfl := step_unique next (step_round event round index)
  exact ⟨t_succ_toNat index, rfl, rfl⟩

theorem order_after_accum (accum : s.phase = 5#4) :
    t.t.toNat = 80 ∧ t.blkidx.toNat = s.blkidx.toNat + 1 ∧
      t.phase = if s.blkidx.toNat + 1 = s.plen.toNat / 64 then 0#4 else 3#4 := by
  obtain ⟨-, count, left⟩ := inv.compressing (.inr (.inr accum))
  have index := inv.roundIndexInAccum accum
  have blkidx := blkidx_succ_toNat left
  simp only [← count, ← blkidx, BitVec.toNat_inj]
  by_cases last : s.blkidx + 1 = s.nblk
  · obtain rfl := step_unique next (step_accum_last event accum last)
    exact ⟨index, rfl, (if_pos last).symm⟩
  · obtain rfl := step_unique next (step_accum_more event accum last)
    exact ⟨index, rfl, (if_neg last).symm⟩

end

/-- Settles O41, micro-operation by micro-operation. -/
theorem microOperationsRunInOrder : Obligations.MicroOperationsRunInOrder := fun _ _ inv event next =>
  ⟨fun idle => step_unique next (step_engine_idle event idle) ▸ idle, order_after_pad next inv event,
    order_after_check next event, order_after_sched next inv event, order_after_round next inv event,
    order_after_accum next inv event⟩

end Sys2Proof.Machine
end

/-! ## Whole commands: PAD, COMPUTE and the counts of engine steps (44_commands.md R183, R184, R187, R188) -/
section
namespace Sys2Proof.Machine

/-! ### Acceptance -/

/-- The core once the word is accepted: a command started, or nothing changed (44_commands.md R180, R186). -/
def State.afterCommand (s : State) (v : Word) : State :=
  if v.toNat = 1 then s.accept false 1#4 else if v.toNat = 2 then s.accept false 2#4
  else if v.toNat = 3 then s.accept true 1#4 else s

@[simp] theorem State.afterCommand_agenda (s : State) (v : Word) : (s.afterCommand v).agenda = s.agenda := by
  unfold State.afterCommand
  split_ifs <;> rfl

section
variable {s : State} {v : Word} (start : s.AboutToRun v)
include start

theorem step_afterCommand : step s = .next (s.popped.afterCommand v) :=
  (step_of_aboutToRun start).trans (commandAccept_idle (by exact start.1) v)

theorem afterCommand_no_agenda : (s.popped.afterCommand v).agenda = [] := by simp [start.2]

theorem run_afterCommand (k : Nat) : run (1 + k) s = run k (s.popped.afterCommand v) :=
  run_step (step_afterCommand start) (Nat.add_comm 1 k)

end

/-! ### PAD -/

/-- A PAD is accepted, and its one engine step pads BUF (44_commands.md R183). -/
theorem run_pad {s : State} (inv : s.Inv) (start : s.AboutToRun 1) :
    run (1 + 1) s = .next (s.popped.accept false 1#4).padded.complete := by
  have no_input : (s.popped.accept false 1#4).agenda = [] := afterCommand_no_agenda start
  have padded := step_pad_alone (nextEvent_of_no_agenda no_input) rfl rfl inv.padding_fits
  rw [State.popped_of_no_agenda no_input] at padded
  exact (run_afterCommand start 1).trans (run_step padded rfl)

/-- Settles O42: the state after the one engine step, with the bytes that the padding stores. -/
theorem padCommandPadsTheMessage : Obligations.PadCommandPadsTheMessage := by
  intro s inv start
  have plen := s.padded_plen_toNat (inv.padding_fits.trans inv.capLegal.2.2)
  refine ⟨_, run_pad inv start, rfl, rfl, rfl, rfl, rfl, plen, rfl, ⟨rfl, rfl, rfl, rfl, rfl⟩,
    fun i outside => s.padded_byteAt?_outside outside, fun k inside => ?_⟩
  have length := padTail_length s.mlen.toNat
  have listed : (padTail s.mlen.toNat)[k]? = some (padTail s.mlen.toNat)[k] := List.getElem?_eq_getElem (by omega)
  rw [listed]
  exact s.padded_byteAt?_tail listed

/-! ### COMPUTE -/

/-- A COMPUTE of no block ends in its CHECK (44_commands.md R187). -/
theorem run_compute_empty {s : State} (start : s.AboutToRun 2) (empty : s.plen.toNat = 0) :
    run (1 + 1) s = .next (s.popped.accept false 2#4).loadIv.complete := by
  have no_input : (s.popped.accept false 2#4).agenda = [] := afterCommand_no_agenda start
  have checked := step_check_empty (nextEvent_of_no_agenda no_input) rfl empty
  rw [State.popped_of_no_agenda no_input] at checked
  exact (run_afterCommand start 1).trans (run_step checked rfl)

/-- Settles O44: CHECK is the first stage of the compression of the blocks; with no block the end state is known outright. -/
theorem computeCompressesTheBlocks : Obligations.ComputeCompressesTheBlocks := by
  intro s b k inv start plen bytes
  have holds : (s.popped.accept false 2#4).HoldsBlocks b k := ⟨plen, plen ▸ inv.plenLegal, bytes⟩
  obtain ⟨t, rest, compressed, same⟩ := run_compressing (afterCommand_no_agenda start) holds (.check rfl rfl)
  have run_t := (run_afterCommand start (1 + 82 * k)).trans rest
  refine ⟨t, run_t, compressed.phase, compressed.done, same.err, same.errcode, same.chain, compressed.h, compressed.nblk,
    compressed.blkidx, fun empty => ?empty, fun nonempty => ?nonempty, same.buf, same.plen, same.mlen⟩
  case empty =>
    subst empty
    obtain rfl := Host.Outcome.next.inj (run_t.symm.trans (run_compute_empty start plen))
    exact ⟨rfl, rfl⟩
  case nonempty =>
    obtain ⟨index, work⟩ := compressed.lastBlock nonempty
    exact ⟨index, work.trans (roundsOfBlock_all b (k - 1))⟩

/-! ### The engine steps left, whatever the bytes of BUF -/

/-- `k` engine steps are left until the core is idle (44_commands.md R188). -/
inductive State.StepsLeft (s : State) (k : Nat) : Prop where
  | idle (phase : s.phase = 0#4) (left : k = 0)
  | padAlone (phase : s.phase = 1#4) (chain : s.chain = false) (left : k = 1)
  | padChained (phase : s.phase = 1#4) (chain : s.chain = true) (left : k = 2 + 82 * (paddedLength s.mlen.toNat / 64))
  | misaligned (phase : s.phase = 2#4) (misaligned : s.plen.toNat % 64 ≠ 0) (left : k = 1)
  | check (phase : s.phase = 2#4) (aligned : s.plen.toNat % 64 = 0) (left : k = 1 + 82 * (s.plen.toNat / 64))
  | sched (phase : s.phase = 3#4) (left : k = 82 * (s.nblk.toNat - s.blkidx.toNat))
  | round (phase : s.phase = 4#4) (left : k + s.t.toNat + 1 = 82 * (s.nblk.toNat - s.blkidx.toNat))
  | accum (phase : s.phase = 5#4) (left : k + 81 = 82 * (s.nblk.toNat - s.blkidx.toNat))

section
variable {s : State} {k : Nat}

theorem State.StepsLeft.busy (stage : s.StepsLeft (k + 1)) : s.phase ≠ 0#4 := by
  cases stage with
  | idle _ left => cases left
  | padAlone phase | padChained phase | misaligned phase | check phase | sched phase | round phase | accum phase =>
    simp [phase]

theorem stepsLeft_step_check (event : s.nextEvent = .engine) (phase : s.phase = 2#4)
    (aligned : s.plen.toNat % 64 = 0) (left : k = 82 * (s.plen.toNat / 64)) : ∃ t, step s = .next t ∧ t.StepsLeft k := by
  by_cases empty : s.plen.toNat = 0
  · exact ⟨_, step_check_empty event phase empty, .idle rfl (by omega)⟩
  · refine ⟨_, step_check_blocks event phase aligned empty, .sched rfl ?_⟩
    rw [State.goto_nblk, State.loadIv_nblk_toNat]
    exact left

variable (inv : s.Inv)
include inv

theorem State.StepsLeft.idle_of_zero (stage : s.StepsLeft 0) : s.phase = 0#4 := by
  cases stage with
  | idle phase => exact phase
  | padAlone _ _ left | padChained _ _ left | misaligned _ _ left | check _ _ left => omega
  | sched phase left => have := inv.compressing (.inl phase); omega
  | round phase left =>
    have := inv.compressing (.inr (.inl phase))
    have := inv.roundIndexInRound phase
    omega
  | accum phase left => omega

variable (event : s.nextEvent = .engine)
include event

theorem stepsLeft_step_pad (phase : s.phase = 1#4) (chain : s.chain = true)
    (left : k + 1 = 2 + 82 * (paddedLength s.mlen.toNat / 64)) : ∃ t, step s = .next t ∧ t.StepsLeft k := by
  have fits := inv.padding_fits
  have plen : s.popped.padded.unchain.plen.toNat = paddedLength s.mlen.toNat :=
    s.padded_plen_toNat (fits.trans inv.capLegal.2.2)
  exact ⟨_, step_pad_chained event phase chain fits, .check rfl (plen ▸ paddedLength_mod _) (by omega)⟩

theorem stepsLeft_step_round (phase : s.phase = 4#4)
    (left : k + 1 + s.t.toNat + 1 = 82 * (s.nblk.toNat - s.blkidx.toNat)) :
    ∃ t, step s = .next t ∧ t.StepsLeft k := by
  have index := inv.roundIndexInRound phase
  have next := t_succ_toNat index
  refine ⟨_, step_round event phase index, ?_⟩
  by_cases last : s.t.toNat = 79
  · rw [if_pos last]
    exact .accum rfl (show k + 81 = 82 * (s.nblk.toNat - s.blkidx.toNat) by omega)
  · rw [if_neg last]
    exact .round rfl (show k + (s.t + 1).toNat + 1 = 82 * (s.nblk.toNat - s.blkidx.toNat) by omega)

theorem stepsLeft_step_accum (phase : s.phase = 5#4)
    (left : k + 1 + 81 = 82 * (s.nblk.toNat - s.blkidx.toNat)) : ∃ t, step s = .next t ∧ t.StepsLeft k := by
  obtain ⟨-, -, inside⟩ := inv.compressing (.inr (.inr phase))
  have next := blkidx_succ_toNat inside
  by_cases last : s.blkidx + 1 = s.nblk
  · rw [last] at next
    exact ⟨_, step_accum_last event phase last, .idle rfl (by omega)⟩
  · exact ⟨_, step_accum_more event phase last,
      .sched rfl (show k = 82 * (s.nblk.toNat - (s.blkidx + 1).toNat) by omega)⟩

/-- An engine step is one step less to idle. -/
theorem stepsLeft_step (stage : s.StepsLeft (k + 1)) : ∃ t, step s = .next t ∧ t.StepsLeft k := by
  cases stage with
  | idle _ left => cases left
  | padAlone phase chain left => exact ⟨_, step_pad_alone event phase chain inv.padding_fits, .idle rfl (by omega)⟩
  | padChained phase chain left => exact stepsLeft_step_pad inv event phase chain left
  | misaligned phase misaligned left =>
    exact ⟨_, step_check_misaligned event phase misaligned, .idle rfl (by omega)⟩
  | check phase aligned left => exact stepsLeft_step_check event phase aligned (by omega)
  | sched phase left =>
    obtain ⟨-, -, inside⟩ := inv.compressing (.inl phase)
    exact ⟨_, step_sched event phase (inv.block_fits inside), .round rfl left⟩
  | round phase left => exact stepsLeft_step_round inv event phase left
  | accum phase left => exact stepsLeft_step_accum inv event phase left

end

/-- With no input to come, `k` steps of the `k + n` that are left leave `n`. -/
theorem run_stepsLeft {s : State} {k n : Nat} (inv : s.Inv) (no_input : s.agenda = []) (stage : s.StepsLeft (k + n)) :
    ∃ t, run k s = .next t ∧ t.Inv ∧ t.StepsLeft n := by
  induction k generalizing s with
  | zero => exact ⟨s, run_zero s, inv, Nat.zero_add n ▸ stage⟩
  | succ k ih =>
    rw [Nat.succ_add] at stage
    obtain ⟨u, next, stage'⟩ := stepsLeft_step inv (nextEvent_of_no_agenda no_input) stage
    have no_input' : u.agenda = [] := by rw [(step_cases next).agenda_eq, no_input]; rfl
    obtain ⟨t, rest, inv', stage''⟩ := ih ((step_cases next).inv inv) no_input' stage'
    exact ⟨t, (run_step next rfl).trans rest, inv', stage''⟩

/-- The engine steps of each word, on an idle core (44_commands.md R188). -/
theorem stepsLeft_afterCommand {s : State} (idle : s.phase = 0#4) (v : Word) :
    (s.afterCommand v).StepsLeft (if v.toNat = 1 then 1
      else if v.toNat = 2 then if s.plen.toNat % 64 = 0 then 1 + 82 * (s.plen.toNat / 64) else 1
      else if v.toNat = 3 then 2 + 82 * (paddedLength s.mlen.toNat / 64)
      else 0) := by
  unfold State.afterCommand
  split_ifs with pad compute aligned hash
  · exact .padAlone rfl rfl rfl
  · exact .check rfl aligned rfl
  · exact .misaligned rfl aligned rfl
  · exact .padChained rfl rfl rfl
  · exact .idle idle rfl

/-- Settles O47: the accepted word fixes the number of steps left, and each engine step is one less. -/
theorem engineStepCounts : Obligations.EngineStepCounts := by
  intro s v n inv start count
  have inv' := (step_cases (step_afterCommand start)).inv inv
  have no_input := afterCommand_no_agenda start
  have stage : (s.popped.afterCommand v).StepsLeft n := count ▸ stepsLeft_afterCommand (s := s.popped) start.1 v
  constructor
  · intro k fewer
    obtain ⟨d, rfl⟩ := Nat.exists_eq_add_of_lt fewer
    obtain ⟨u, run_u, -, left⟩ := run_stepsLeft (k := k) (n := d + 1) inv' no_input stage
    exact ⟨u, (run_afterCommand start k).trans run_u, left.busy⟩
  · obtain ⟨t, run_t, inv_t, left⟩ := run_stepsLeft (k := n) (n := 0) inv' no_input stage
    exact ⟨t, (run_afterCommand start n).trans run_t, left.idle_of_zero inv_t⟩

end Sys2Proof.Machine
end

/-! ## Exceptions: no good state stops, and the one error changes only the status (60_exceptions.md R203, R205) -/
section
namespace Sys2Proof.Machine

/-! ### No stop from a good state -/

/-- ERRCODE is never one of the reserved values, which a read of STATUS stops at (60_exceptions.md R201; log 6). -/
theorem State.Inv.errcode_toNat_le {s : State} (inv : s.Inv) : s.errcode.toNat ≤ 1 := by
  obtain code | code := inv.errcodeDefined <;> simp [code]

section
variable {s : State} (event : s.nextEvent = .engine)
include event

/-- CHECK ends in the error, in completion, or in the first block, whatever PLEN is. -/
theorem step_check_safe (check : s.phase = 2#4) : Safe (step s) := by
  by_cases aligned : s.plen.toNat % 64 = 0
  · by_cases empty : s.plen.toNat = 0
    · exact ⟨_, step_check_empty event check empty⟩
    · exact ⟨_, step_check_blocks event check aligned empty⟩
  · exact ⟨_, step_check_misaligned event check aligned⟩

theorem step_accum_safe (accum : s.phase = 5#4) : Safe (step s) := by
  by_cases last : s.blkidx + 1 = s.nblk
  · exact ⟨_, step_accum_last event accum last⟩
  · exact ⟨_, step_accum_more event accum last⟩

variable (inv : s.Inv)
include inv

/-- The padding fits BUF, with CHAIN or without it. -/
theorem step_pad_safe (pad : s.phase = 1#4) : Safe (step s) := by
  by_cases chain : s.chain = true
  · exact ⟨_, step_pad_chained event pad chain inv.padding_fits⟩
  · exact ⟨_, step_pad_alone event pad (Bool.eq_false_iff.2 chain) inv.padding_fits⟩

/-- The engine meets no reserved PHASE, and each micro-operation stays in its bounds (10_state.md R40). -/
theorem step_engine_safe : Safe (step s) := by
  rcases phase_cases s.phase with idle | pad | check | sched | round | accum | reserved
  · exact ⟨_, step_engine_idle event idle⟩
  · exact step_pad_safe event inv pad
  · exact step_check_safe event check
  · obtain ⟨-, -, left⟩ := inv.compressing (.inl sched)
    exact ⟨_, step_sched event sched (inv.block_fits left)⟩
  · exact ⟨_, step_round event round (inv.roundIndexInRound round)⟩
  · exact step_accum_safe event accum
  · exact absurd inv.phaseDefined (Nat.not_le.2 reserved)

end

/-- Settles O36, event by event: the invariant rules out the fault of a read and the three of the engine. -/
theorem noStepStopsFromAGoodState : Obligations.NoStepStopsFromAGoodState := by
  intro s inv
  match event : s.nextEvent with
  | .reset => exact ⟨_, step_reset event⟩
  | .bus (.read addr) => exact ⟨_, step_read_next event fun _ => inv.errcode_toNat_le⟩
  | .bus (.write addr v) => exact step_write event ▸ hostWrite_safe s.popped addr v
  | .engine => exact step_engine_safe event inv

/-! ### The error -/

/-- A COMPUTE of a misaligned length ends in its CHECK, which raises the error (60_exceptions.md R200). -/
theorem run_compute_misaligned {s : State} (start : s.AboutToRun 2) (misaligned : s.plen.toNat % 64 ≠ 0) :
    run (1 + 1) s = .next (s.popped.accept false 2#4).raiseAlignmentError := by
  have no_input : (s.popped.accept false 2#4).agenda = [] := afterCommand_no_agenda start
  have checked := step_check_misaligned (nextEvent_of_no_agenda no_input) rfl misaligned
  rw [State.popped_of_no_agenda no_input] at checked
  exact (run_afterCommand start 1).trans (run_step checked rfl)

/-- Settles O43: acceptance and the error write the status fields, and the one input is consumed. -/
theorem misalignedComputeReportsAndChangesNothing : Obligations.MisalignedComputeReportsAndChangesNothing := by
  intro s start misaligned
  have no_input : (s.popped.accept false 2#4).agenda = [] := afterCommand_no_agenda start
  rw [run_compute_misaligned start misaligned, ← no_input]
  rfl

end Sys2Proof.Machine
end

/-! ## Reset, and a HASH among host reads and writes (70_reset_and_hazards.md R220 to R222, R238) -/
section
namespace Sys2Proof.Machine

/-! ### Reset -/

theorem State.resetAt_statusWord (c : Nat) : (resetAt c).statusWord = 0#32 :=
  BitVec.eq_of_toNat_eq (resetAt c).statusWord_toNat

/-- Settles O32: each element is the one `State.resetAt` names, and W is the same word 80 times. -/
theorem resetValues : Obligations.ResetValues := fun c =>
  ⟨rfl, State.resetAt_statusWord c, rfl, rfl, rfl, rfl, rfl, rfl, rfl, rfl, rfl, rfl, rfl, rfl,
    fun _ inside => Vector.getElem_replicate inside, Memory.byteAt?_nil⟩

/-- Settles O33: a step with reset next is `State.resetEvent`, in every state; STATUS and BUF are those of `State.resetAt`. -/
theorem resetEventRestoresTheResetValues : Obligations.ResetEventRestoresTheResetValues := fun s event =>
  ⟨s.popped.resetEvent, step_reset event, rfl, State.resetAt_statusWord s.bufCap, Memory.byteAt?_nil⟩

/-! ### A host access while the core is busy (20_memory.md R64, R70) -/

/-- All that the spec gives the core is the same: the two states differ at most in the model's own fields. -/
def State.SameCore (s t : State) : Prop :=
  ∃ draws agenda replies, t = { s with draws := draws, agenda := agenda, replies := replies }

/-- While busy, a host read changes nothing of the core, and a host write is ignored. -/
theorem StepCase.sameCore {s t : State} (c : StepCase s t) {x : Access} (event : s.nextEvent = .bus x)
    (busy : s.phase ≠ 0#4) : s.SameCore t := by
  cases c with
  | read _ _ result => exact ⟨_, _, _, result⟩
  | ignored _ _ _ result => exact ⟨_, _, _, result⟩
  | command _ _ _ idle | mlen _ _ _ idle | plen _ _ _ idle | buf _ _ _ idle => exact absurd idle busy
  | _ engine => cases event.symm.trans engine

/-- A compression stands where it stood. -/
theorem State.Compressing.of_sameCore {b : Nat → Byte} {n k : Nat} {s t : State} (stage : s.Compressing b n k)
    (same : s.SameCore t) : t.Compressing b n k := by
  obtain ⟨draws, agenda, replies, rfl⟩ := same
  cases stage with
  | check phase left => exact .check phase left
  | sched i block phase left => exact .sched i { block with } phase left
  | round i block phase index w work left => exact .round i { block with } phase index w work left
  | accum i block phase t work left => exact .accum i { block with } phase t work left
  | done compressed left => exact .done { compressed with } left

/-! ### The stages of a HASH -/

/-- Where a HASH of the message m stands when k engine steps are left: its PAD is next, or the padded message is in BUF and its
blocks are being compressed (44_commands.md R185). -/
inductive State.Hashing (s : State) (m : List Byte) (k : Nat) : Prop where
  | pad (len : s.mlen.toNat = m.length) (phase : s.phase = 1#4) (chain : s.chain = true) (message : s.Holds m)
      (left : k = 2 + 82 * (paddedLength m.length / 64))
  | blocks (len : s.mlen.toNat = m.length) (holds : s.HoldsBlocks (paddedByte m) (paddedLength m.length / 64))
      (stage : s.Compressing (paddedByte m) (paddedLength m.length / 64) k)

section
variable {s : State} {m : List Byte} {k : Nat}

theorem State.Hashing.of_sameCore {t : State} (stage : s.Hashing m k) (same : s.SameCore t) : t.Hashing m k := by
  cases stage with
  | pad len phase chain message left =>
    obtain ⟨draws, agenda, replies, rfl⟩ := same
    exact .pad len phase chain message left
  | blocks len holds stage =>
    have stage' := stage.of_sameCore same
    obtain ⟨draws, agenda, replies, rfl⟩ := same
    exact .blocks len { holds with } stage'

/-- With a step left the core is busy. -/
theorem State.Hashing.busy (stage : s.Hashing m (k + 1)) : s.phase ≠ 0#4 := by
  cases stage with
  | pad _ phase => simp [phase]
  | blocks _ _ stage =>
    intro idle
    exact absurd stage.phase_ge (by simp [idle])

variable (inv : s.Inv)
include inv

/-- A host read or write among the engine steps leaves the HASH where it stands. -/
theorem hashing_step_bus {x : Access} (event : s.nextEvent = .bus x) (stage : s.Hashing m (k + 1)) :
    ∃ t, step s = .next t ∧ t.Hashing m (k + 1) := by
  obtain ⟨t, next⟩ := noStepStopsFromAGoodState s inv
  exact ⟨t, next, stage.of_sameCore ((step_cases next).sameCore event stage.busy)⟩

variable (event : s.nextEvent = .engine)
include event

theorem hashing_step_pad (len : s.mlen.toNat = m.length) (phase : s.phase = 1#4) (chain : s.chain = true)
    (message : s.Holds m) (left : k + 1 = 2 + 82 * (paddedLength m.length / 64)) :
    ∃ t, step s = .next t ∧ t.Hashing m k := by
  have fits := inv.padding_fits
  have padded : s.popped.padded.HoldsBlocks (paddedByte m) (paddedLength m.length / 64) :=
    State.Holds.padded_holdsBlocks message len (len ▸ fits) inv.capLegal.2.2
  exact ⟨_, step_pad_chained event phase chain fits, .blocks len { padded with } (.check rfl (by omega))⟩

/-- An engine step is one step less to the digest. -/
theorem hashing_step_engine (stage : s.Hashing m (k + 1)) : ∃ t, step s = .next t ∧ t.Hashing m k := by
  cases stage with
  | pad len phase chain message left => exact hashing_step_pad inv event len phase chain message left
  | blocks len holds stage =>
    obtain ⟨t, next, stage'⟩ := compressing_step event holds stage
    have plen := holds.plen
    have same := (step_cases next).sameOperands (by simp [event]) stage.phase_ge (by omega)
    exact ⟨t, next, .blocks (same.mlen ▸ len) (holds.of_sameOperands same) stage'⟩

end

/-- The end of a HASH: the compression is over, so H is SHA1(m); DONE excludes an error (10_state.md R26, R40). -/
theorem State.Hashing.result {s : State} {m : List Byte} (stage : s.Hashing m 0) (inv : s.Inv) :
    s.h = sha1 m ∧ s.phase = 0#4 ∧ s.done = true ∧ s.err = false ∧ s.errcode = 0#4 ∧ s.mlen.toNat = m.length ∧
      s.plen.toNat = paddedLength m.length := by
  cases stage with
  | pad _ _ _ _ left => omega
  | blocks len holds stage =>
    have compressed := stage.compressed
    have no_error : s.err ≠ true := fun err => inv.flagsExclusive ⟨compressed.done, err⟩
    have no_code : s.errcode = 0#4 := inv.errcodeDefined.resolve_right (mt inv.errHasCode.2 no_error)
    have plen : s.plen.toNat = paddedLength m.length :=
      holds.plen.trans (Nat.mul_div_cancel' (Nat.dvd_of_mod_eq_zero (paddedLength_mod m.length)))
    exact ⟨compressed.h, compressed.phase, compressed.done, Bool.eq_false_iff.2 no_error, no_code, len, plen⟩

/-! ### The interleaving -/

/-- While a step is left after them, the events of any list without reset run, and of the steps left only the engine's
go down. -/
theorem run_hashing {s : State} {m : List Byte} {n : Nat} (events later : List Event)
    (agenda : s.agenda = events ++ later) (live : .reset ∉ events) (inv : s.Inv)
    (stage : s.Hashing m (events.count .engine + (n + 1))) :
    ∃ t, run events.length s = .next t ∧ t.agenda = later ∧ t.Inv ∧ t.Hashing m (n + 1) := by
  induction events generalizing s with
  | nil => exact ⟨s, run_zero s, agenda, inv, by simpa using stage⟩
  | cons e events ih =>
    obtain ⟨not_reset, live'⟩ := not_or.1 (mt List.mem_cons.2 live)
    have event : s.nextEvent = e := by rw [State.nextEvent, agenda]; rfl
    have one_step : ∃ u, step s = .next u ∧ u.Hashing m (events.count .engine + (n + 1)) := by
      match e with
      | .reset => exact absurd rfl not_reset
      | .bus x =>
        rw [List.count_cons_of_ne (by simp)] at stage
        exact hashing_step_bus inv event stage
      | .engine =>
        rw [List.count_cons_self, Nat.add_right_comm] at stage
        exact hashing_step_engine inv event stage
    obtain ⟨u, next, stage'⟩ := one_step
    have agenda' : u.agenda = events ++ later := by rw [(step_cases next).agenda_eq, agenda]; rfl
    obtain ⟨t, rest, ended⟩ := ih agenda' live' ((step_cases next).inv inv) stage'
    exact ⟨t, (run_step next rfl).trans rest, ended⟩

/-- Settles O48: the HASH is accepted, the events before the last leave one engine step, and the last event takes it. -/
theorem digestUnderEveryInterleaving : Obligations.DigestUnderEveryInterleaving := by
  intro s m rest inv idle len message agenda live count last
  obtain ⟨before, rfl⟩ := List.getLast?_eq_some_iff.1 last
  have accepted : step s = .next (s.popped.accept true 1#4) := by
    rw [step_write_cmd (by rw [State.nextEvent, agenda]; rfl) idle rfl, commandAccept_idle (by exact idle)]
    rfl
  have left : before.count .engine + 1 = 2 + 82 * (paddedLength m.length / 64) := by
    rw [← count, List.count_append, List.count_singleton_self]
  obtain ⟨u, run_u, agenda_u, inv_u, stage_u⟩ := run_hashing (s := s.popped.accept true 1#4) before [.engine]
    (by simp [agenda]) (fun reset => live (List.mem_append_left _ reset)) ((step_cases accepted).inv inv)
    (.pad len rfl rfl message left)
  obtain ⟨t, final, stage_t⟩ := hashing_step_engine inv_u (by rw [State.nextEvent, agenda_u]; rfl) stage_u
  obtain ⟨h, phase, done, err, errcode, len_t, plen⟩ := stage_t.result ((step_cases final).inv inv_u)
  have run_t : run (1 + (before ++ [Event.engine]).length) s = .next t := by
    rw [run_step (k := before.length + 1) accepted (by simp; omega), run_add (b := 1) run_u rfl, run_step final rfl,
      run_zero]
  exact ⟨t, run_t, by rw [(step_cases final).agenda_eq, agenda_u]; rfl, h, phase, done, err, errcode,
    BitVec.eq_of_toNat_eq (len_t.trans len.symm), plen⟩

end Sys2Proof.Machine
end

/-! ## An opcode-table row as the next step, and a reserved ERRCODE (log 5, log 6, log 11) -/
section
namespace Sys2Proof.Machine

/-! ### The rows of the opcode table -/

/-- The two kinds of row: a command word of 32 bits, or a PHASE in four bits (log 11). -/
theorem tableCode_eq_some_iff {nbits w : Nat} {c : Code} :
    tableCode nbits w = some c ↔
      nbits = 32 ∧ w < 2 ^ 32 ∧ c = .cmd (BitVec.ofNat 32 w) ∨
      (nbits = 8 ∨ nbits = 4) ∧ w < 16 ∧ c = .phase (BitVec.ofNat 4 w) := by
  by_cases command : nbits = 32
  · simp [tableCode, command, eq_comm]
  · simp [tableCode, command, eq_comm]

theorem decodeTableWord_eq_some_iff {nbits w : Nat} {i : Instr} :
    decodeTableWord nbits w = some i ↔ ∃ c, tableCode nbits w = some c ∧ decode c = .ok i := by
  cases row : tableCode nbits w with
  | none => simp [decodeTableWord, row]
  | some c => cases code : decode c <;> simp [decodeTableWord, row, code, Except.toOption]

theorem State.withFetchWord_of_tableCode (s : State) {nbits w : Nat} {c : Code} (row : tableCode nbits w = some c) :
    s.withFetchWord nbits w = s.placeCode c := by
  rw [State.withFetchWord, State.placeTableWord, row]

section
variable (s : State) {i : Instr}

/-- A placed command is a write to CMD on an idle core (44_commands.md R180; log 5). -/
theorem step_placeCode_cmd {v : Word} (defined : decode (.cmd v) = .ok i) :
    step (s.placeCode (.cmd v)) = exec i { s with phase := 0#4 } :=
  stepRunsTheDecodedInstruction.1 _ (Reg.offset .cmd) v i rfl rfl rfl defined

/-- A placed micro-operation is the engine's next step (44_commands.md R181; log 5). -/
theorem step_placeCode_phase {p : BitVec 4} (defined : decode (.phase p) = .ok i) :
    step (s.placeCode (.phase p)) = exec i { s with phase := p } :=
  stepRunsTheDecodedInstruction.2 _ i rfl defined

end

/-- Settles O6: the row is a command word or a PHASE, and the step of the state that places it runs what it decodes to. -/
theorem fetchWordRunsAsTheNextStep : Obligations.FetchWordRunsAsTheNextStep := by
  intro s nbits w i read
  obtain ⟨c, row, defined⟩ := decodeTableWord_eq_some_iff.1 read
  rw [s.withFetchWord_of_tableCode row]
  obtain ⟨command, -, rfl⟩ | ⟨fourBits, -, rfl⟩ := tableCode_eq_some_iff.1 row
  · rw [step_placeCode_cmd s defined, if_pos command]
  · rw [step_placeCode_phase s defined, if_neg (by omega)]

/-! ### A read of STATUS that meets a reserved ERRCODE -/

theorem State.errcodeReserved_iff (s : State) : s.errcodeReserved = true ↔ 2 ≤ s.errcode.toNat := by
  rw [State.errcodeReserved, decide_eq_true_iff, BitVec.lt_def]
  rfl

/-- The one way in which a host read stops (log 6); `hostRead_next` is the other case. -/
theorem hostRead_reservedErrCode {s : State} {addr : Word} (status : wordAddr addr = 0x008)
    (reserved : 2 ≤ s.errcode.toNat) : hostRead addr s = .fault .reservedErrCode :=
  if_pos ⟨(alignWord_eq_iff addr _).2 status, s.errcodeReserved_iff.2 reserved⟩

/-- Settles O15. -/
theorem reservedErrCodeStopsAStatusRead : Obligations.ReservedErrCodeStopsAStatusRead :=
  fun _ _ event status reserved => (step_read event).trans (hostRead_reservedErrCode status reserved)

end Sys2Proof.Machine
end
